-- ==== Sys2Proof/Word.lean ====
section
/-! DEFINITION. The block's data types: bus words, bytes, nibbles, register offsets, and the two forms of the logo
(R2, R11, R14, and the types named at the head of 41_codec_datapath.md). -/

namespace Sys2Proof

/-- A 32-bit word of the register interface (R11). -/
abbrev Word := BitVec 32

/-- A byte: one RAW entry, or one byte of the blob memory (R33, R50). -/
abbrev Byte := BitVec 8

/-- A nibble: "a 4-bit unsigned value" (R14). -/
abbrev Nibble := BitVec 4

/-- A 12-bit byte offset of the register interface (R11, R51). -/
abbrev RegAddr := BitVec 12

/-- A 32-bit byte address of the blob port (R11, R50). -/
abbrev BlobAddr := BitVec 32

/-- A packed logo, `Bytes48`: 48 bytes indexed j (R33). -/
abbrev Raw := Vector Byte 48

/-- The 96 nibbles of a packed logo, `Nibbles96`, indexed k (R110). -/
abbrev Nibbles := Vector Nibble 96

/-- A pixel grid, `Grid`: 8 rows of 48 pixels, indexed [y][x]; true is on (R14, R34). -/
abbrev Grid := Vector (Vector Bool 48) 8

/-- The internal row vectors ROW[y] of R117: column x is bit x. -/
abbrev Rows := Vector (BitVec 48) 8

end Sys2Proof
end

