-- ==== Sys2Proof/Config.lean ====
section
/-! DEFINITION. The constants the source fixes (R9), the one named parameter (R10), and the values the spec leaves free
(U1, U2, U3). A free value is an opaque constant: nothing can be proved of what it is. -/

namespace Sys2Proof.Config

/-- LOGO_OFFSET: the first blob address of the window (R9, R52). -/
def logoOffset : Nat := 0x0104

/-- LOGO_END: the first blob address past the window (R9, R52). -/
def logoEnd : Nat := 0x0134

/-- LOGO_BYTES: the bytes of a packed logo (R9). -/
def logoBytes : Nat := 48

/-- WIDTH in pixels (R9). -/
def width : Nat := 48

/-- HEIGHT in pixels (R9). -/
def height : Nat := 8

/-- The largest value a length or shape register holds, at which the host saturates (R28 to R32; D8). -/
def lengthLimit : Nat := 0xFFFFFFFF

/-- The default of the parameter MIN_BLOB_LEN: 0x014F, the reading that conflict C1 chooses (R10, U4; log 9, DEDUCED). -/
def minBlobLenDefault : Nat := 0x014F

/-- The byte RAW[j] holds after the reset numbered `draw`: a free value (R212, U1, U3; log 2, DEDUCED). -/
opaque drawnRaw (draw j : Nat) : Byte

/-- The pixel PIX[y][x] holds after the reset numbered `draw`: a free value (R212, U1, U3; log 2, DEDUCED). -/
opaque drawnPixel (draw y x : Nat) : Bool

/-- Whether a SET_RAW abandoned by the reset numbered `draw` had written window byte j: a free value
(R213, U2; log 5, DESIGN CHOICE). -/
opaque windowByteWritten (draw j : Nat) : Bool

end Sys2Proof.Config
end

