-- ==== Sys2Proof/Syntax.lean ====
section
/-! DEFINITION. The five commands of spec/opcode_table.json, one constructor per row (R72). A command word has no
operand field (R71), so no constructor has an argument. -/

namespace Sys2Proof

/-- The commands (R72). -/
inductive Instr where
  /-- ATTACH: the source's Construct (R90). -/
  | attach
  /-- GET_RAW: the source's GetRaw (R92). -/
  | getRaw
  /-- SET_RAW: the source's SetRaw (R94). -/
  | setRaw
  /-- DECODE: the source's Decode (R140). -/
  | decode
  /-- ENCODE: the source's Encode (R142). -/
  | encode
deriving DecidableEq, Repr

end Sys2Proof
end

