-- ==== Sys2Proof/WellFormed.lean ====
section
/-! DEFINITION. What makes a command word well formed (R70, R72). A command has no operands (R71), so every `Instr` is
well formed as it stands; what can be ill formed is the word itself, given by its two fields. -/

namespace Sys2Proof

/-- A command word by its two fields (R70). -/
structure CommandWord where
  /-- Bits [31:8], which must be 0x000000. -/
  zero : BitVec 24
  /-- Bits [7:0], the opcode. -/
  op : BitVec 8
deriving DecidableEq, Repr

/-- The `zero` field is 0x000000 (R70). -/
def CommandWord.zeroClear (c : CommandWord) : Bool := c.zero == 0

/-- The opcode is one of the five of R72; 0x00 and 0x06 to 0xFF are illegal (R73). -/
def CommandWord.opDefined (c : CommandWord) : Bool := decide (1 ≤ c.op.toNat) && decide (c.op.toNat ≤ 5)

/-- Both checks of R72: the word selects a command. -/
def CommandWord.wellFormed (c : CommandWord) : Bool := c.zeroClear && c.opDefined

end Sys2Proof
end

