-- ==== Sys2Proof/Decode.lean ====
section
/-! DEFINITION. Decoding a command word (R70 to R74), total on all 2^32 words, and the encoder written from the same
table. -/

namespace Sys2Proof

/-- What a command word decodes to: a command, or IllegalCommand by name (R74). -/
inductive Decoded where
  | command (i : Instr)
  /-- Every word that R72 does not list (R73). The block answers it with error code 5; it is no refusal. -/
  | illegalCommand
deriving DecidableEq, Repr

/-- `op = w[7:0]` (R70). -/
def opField (w : Word) : BitVec 8 := w.extractLsb' 0 8

/-- `zero = w[31:8]` (R70). -/
def zeroField (w : Word) : BitVec 24 := w.extractLsb' 8 24

/-- A word taken apart into its fields (R70). -/
def wordFields (w : Word) : CommandWord := { zero := zeroField w, op := opField w }

/-- The opcode map of R72. -/
def decodeOp (op : BitVec 8) : Decoded :=
  match op.toNat with
  | 0x01 => .command .attach
  | 0x02 => .command .getRaw
  | 0x03 => .command .setRaw
  | 0x04 => .command .decode
  | 0x05 => .command .encode
  | _ => .illegalCommand

/-- `decode` of R74. -/
def decode (w : Word) : Decoded :=
  if zeroField w ≠ 0 then .illegalCommand else decodeOp (opField w)

/-- The opcode of each command (R72). -/
def opcode : Instr → BitVec 8
  | .attach => 0x01
  | .getRaw => 0x02
  | .setRaw => 0x03
  | .decode => 0x04
  | .encode => 0x05

/-- The command word of each command: 24 zero bits above the opcode (R70, R72). -/
def encode (i : Instr) : Word := (0 : BitVec 24) ++ opcode i

/-- The word that `nbits` bits of `w` stand for: the bits above `nbits` are 0. -/
def tableWord (nbits w : Nat) : Word := BitVec.ofNat 32 (w % 2 ^ nbits)

/-- The host's view of the decoder: a command word is one 32-bit word, and no longer form exists (R70). -/
def decodeTableWord (nbits w : Nat) : Option Instr :=
  if nbits ≤ 32 then
    match decode (tableWord nbits w) with
    | .command i => some i
    | .illegalCommand => none
  else none

end Sys2Proof
end

