-- ==== Sys2Proof/Machine/State.lean ====
section
/-! DEFINITION. The state of the block and of its surroundings as plain data (10_state.md), why a step may stop, and the
state after reset (R210, R212). -/

namespace Sys2Proof.Machine

/-- What a register-interface offset names (R23, R160). -/
inductive Region where
  | cmd
  | status
  | blobLen
  | logoLen
  | imgW
  | imgH
  | imgCh
  | raw (j : Fin 48)
  | pix (y : Fin 8) (x : Fin 48)
  | unmapped
deriving DecidableEq, Repr

/-- The error kinds of R180 with the code 0 of success. -/
inductive ErrorKind where
  | ok
  | tooSmall
  | logoTooSmall
  | invalidDimensions
  | notAttached
  | illegalCommand
  /-- Reserved for the host's image collaborator; the block never raises it (R180, V2). -/
  | imageDecodeFailed
  /-- Reserved for the host's image collaborator; the block never raises it (R180, V2). -/
  | imageEncodeFailed
deriving DecidableEq, Repr

/-- One access of the blob port (R20, R58). -/
inductive PortAccess where
  | read (addr : Nat)
  | write (addr : Nat) (value : Byte)
deriving DecidableEq, Repr

/-- The true lengths and shape of the host's data, and how far its memory reaches, as far as the run tells them; `none`
means that the run does not tell, and the host is taken to keep duties 1 and 2 of R222 (R28 to R32, R191; log 6, DESIGN
CHOICE). -/
structure HostFacts where
  blobLen : Option Nat
  logoLen : Option Nat
  imgW : Option Nat
  imgH : Option Nat
  imgCh : Option Nat
  /-- The lowest blob address that no memory backs, so that addresses 0 to backedLen - 1 are backed (R222 duty 2). -/
  backedLen : Option Nat
deriving DecidableEq, Repr

/-- What reaches the block or its blob memory from outside, in the order of time (R20; log 3, DEDUCED). -/
inductive HostInput where
  /-- A register read, `RD` (R161). -/
  | regRead (addr : RegAddr)
  /-- A register write, `WR` (R162). -/
  | regWrite (addr : RegAddr) (data : Word)
  /-- One assertion of `rst` (R210; log 11, DEDUCED). -/
  | rst
  /-- The host, or another agent, reads a byte of the blob memory (R58, R63, R98). -/
  | blobRead (addr : BlobAddr)
  /-- The host, or another agent, writes a byte of the blob memory (R40, R58, R63). -/
  | blobWrite (addr : BlobAddr) (value : Byte)
  /-- The host's data change, and with them their true lengths and shape, or its memory does (R222 duties 1 and 2; log 6,
  DESIGN CHOICE). -/
  | newFacts (facts : HostFacts)
  /-- Another block instance starts a GET_RAW or SET_RAW on this block's window (R199, R222 duty 5; log 15, DEDUCED). -/
  | peerStarts
  /-- That command of the other instance completes (R199, R222 duty 5; log 15, DEDUCED). -/
  | peerEnds
  /-- The host sets out to write a byte that it wants the next GET_RAW to see; the write is not complete yet (R63, R222
  duty 4; log 16, DESIGN CHOICE). -/
  | wantWrite (addr : BlobAddr) (value : Byte)
  /-- The k-th of the wanted writes completes, counted from 0 by age (R63, R222 duty 4; log 16, DESIGN CHOICE). -/
  | wantedDone (k : Nat)
deriving DecidableEq, Repr

/-- The blob memory: the bytes the run gives memory to, by rising address (R50; log 4, DESIGN CHOICE). -/
abbrev Memory := List Host.Cell

/-- Why a run stops. Each is a broken host duty of R222, which the spec says to record "as a fault of the run" (R191,
D31, U7, U8); the block itself never faults. All are safe: the machine stops where the spec gives no behaviour. -/
inductive Fault where
  /-- GET_RAW or SET_RAW reaches a window byte that the run gives no memory: host duty 2 (raised by the two commands, and
  by a reset that cuts one of them off). Safe. -/
  | unbackedWindow
  /-- The blob is attached, or about to be, and BLOB_LEN reaches past the memory the host is known to have: host duty 2
  (raised while ATTACH, GET_RAW or SET_RAW runs, and by the change of the memory). Safe. -/
  | unbackedBlob
  /-- A command relies on a length or shape register that contradicts the known true value: host duty 1 (raised while the
  command runs). Safe. -/
  | falseDeclaration
  /-- Another agent writes the window while GET_RAW or SET_RAW runs, or reads it while SET_RAW runs: host duty 3 (raised by
  the blob access). Safe. -/
  | windowRace
  /-- Two block instances run GET_RAW or SET_RAW on the same window at once: host duty 5 (raised while this block's command
  runs, or when a second instance starts beside another). Safe. -/
  | windowShared
  /-- The CMD write of a GET_RAW comes while the blob is attached and a write to the window that the host wants it to see is
  not complete: host duty 4 (raised by the CMD write). Safe. -/
  | lateBlobWrite
  /-- The host reads a byte of its own blob memory that the run gives no memory: host duty 2 (raised by the blob read). Safe. -/
  | unbackedHostRead
deriving DecidableEq, Repr

/-- Why the model gives no meaning. -/
inductive Refusal where
  /-- The command of this mnemonic has no meaning yet (raised by `exec`'s arm). Safe. -/
  | notModelled (mnemonic : String)
deriving DecidableEq, Repr

/-- The whole state; INVENTORY.md lists each field with its rule. -/
structure State where
  /-- STATUS.ERR, bits [3:0] (R25, R26). -/
  err : BitVec 4
  /-- STATUS.BLOB_VALID, bit [4] (R25, R27). -/
  blobValid : Bool
  /-- BLOB_LEN (R28). -/
  blobLen : Word
  /-- LOGO_LEN (R29). -/
  logoLen : Word
  /-- IMG_W (R30). -/
  imgW : Word
  /-- IMG_H (R31). -/
  imgH : Word
  /-- IMG_CH (R32). -/
  imgCh : Word
  /-- RAW[0..47] (R33). -/
  raw : Raw
  /-- PIX[0..7][0..47] (R34). -/
  pix : Grid
  /-- The command word accepted and not yet completed; `busy` of R38 is 1 exactly when there is one (R24, R43; log 3, DEDUCED). -/
  running : Option Word
  /-- The blob memory (R40, R50). -/
  blob : Memory
  /-- `reg_rdata` of the last completed register read (R20, R161; log 8, DESIGN CHOICE). -/
  regRdata : Word
  /-- The byte the host last read from its own blob memory (R98; log 8, DESIGN CHOICE). -/
  hostBlobRdata : Byte
  /-- What is still to reach the block, oldest first (R20; log 3, DEDUCED). -/
  inputs : List HostInput
  /-- The true lengths and shape of the host's data, and the reach of its memory (R28 to R32, R222; log 6, DESIGN CHOICE). -/
  facts : HostFacts
  /-- Another block instance runs a GET_RAW or SET_RAW on this block's window (R199, R222 duty 5; log 15, DEDUCED). -/
  peer : Bool
  /-- The blob writes that the host wants the next GET_RAW to see and that are not complete, oldest first (R63, R222 duty 4;
  log 16, DESIGN CHOICE). -/
  wanted : List (BlobAddr × Byte)
  /-- The model's own counter, to which the free values are applied (log 2, DEDUCED). -/
  draws : Nat
deriving DecidableEq, Repr

/-- `busy` of R38. -/
def State.busy (s : State) : Bool := s.running.isSome

/-- The run tells nothing of the host's data. -/
def HostFacts.unknown : HostFacts := 
  { blobLen := none, logoLen := none, imgW := none, imgH := none, imgCh := none, backedLen := none }

/-- The machine right after reset (R210). RAW and PIX hold the values that log 1 names (DESIGN CHOICE, unsafe); the blob memory is
the host's and lists nothing; no input waits; no other instance runs (log 15); no wanted write is under way (log 16). -/
def State.reset : State where
  err := 0
  blobValid := false
  blobLen := 0
  logoLen := 0
  imgW := 0
  imgH := 0
  imgCh := 0
  raw := Vector.replicate 48 0
  pix := Vector.replicate 8 (Vector.replicate 48 false)
  running := none
  blob := []
  regRdata := 0
  hostBlobRdata := 0
  inputs := []
  facts := HostFacts.unknown
  peer := false
  wanted := []
  draws := 0

end Sys2Proof.Machine
end

