-- ==== Sys2Proof/Machine/Flags.lean ====
section
/-! DEFINITION. The only result indications of the block: the error codes of STATUS.ERR and the STATUS word
(R25, R26, R37, R180). The block has no condition codes and no arithmetic flags (R37). -/

namespace Sys2Proof.Machine

/-- The code of each kind in STATUS.ERR (R180). -/
def ErrorKind.code : ErrorKind → BitVec 4
  | .ok => 0
  | .tooSmall => 1
  | .logoTooSmall => 2
  | .invalidDimensions => 3
  | .notAttached => 4
  | .illegalCommand => 5
  | .imageDecodeFailed => 6
  | .imageEncodeFailed => 7

/-- STATUS as read: `zext_32({BLOB_VALID, ERR})`, bit 4 and bits [3:0] (R25, R161). -/
def statusWord (s : State) : Word := (BitVec.ofBool s.blobValid ++ s.err).setWidth 32

end Sys2Proof.Machine
end

