-- ==== Sys2Proof/Machine/Ops.lean ====
section
/-! DEFINITION. The named operations over state: the field updates, the two ways a command ends (R13), the blob memory
(R50), and the window (R52, R58). -/

namespace Sys2Proof.Machine

/-! ### Field updates -/

/-- STATUS.BLOB_VALID ← v. -/
def State.withBlobValid (v : Bool) (s : State) : State := { s with blobValid := v }

/-- RAW ← r, all 48 entries. -/
def State.withRaw (r : Raw) (s : State) : State := { s with raw := r }

/-- PIX ← g, all 384 entries. -/
def State.withPix (g : Grid) (s : State) : State := { s with pix := g }

/-- The blob memory becomes m. -/
def State.withBlob (m : Memory) (s : State) : State := { s with blob := m }

/-- What is still to reach the block becomes l. -/
def State.withInputs (l : List HostInput) (s : State) : State := { s with inputs := l }

/-- reg_rdata carries v (R161). -/
def State.withRegRdata (v : Word) (s : State) : State := { s with regRdata := v }

/-- The byte the host last read from its own blob memory is v (R98). -/
def State.withHostBlobRdata (v : Byte) (s : State) : State := { s with hostBlobRdata := v }

/-- What the run tells of the host's data and memory becomes f. -/
def State.withFacts (f : HostFacts) (s : State) : State := { s with facts := f }

/-- Another instance runs a command on the window, or none does. -/
def State.withPeer (p : Bool) (s : State) : State := { s with peer := p }

/-- The wanted writes that are not complete become l. -/
def State.withWanted (l : List (BlobAddr × Byte)) (s : State) : State := { s with wanted := l }

/-! ### How a command ends (R13) -/

/-- `complete()`: STATUS.ERR ← 0, and the block is no longer busy (R13, R26, R38). -/
def State.complete (s : State) : State := { s with err := ErrorKind.ok.code, running := none }

/-- `raise Error(code)`, the block's one way of taking an error: STATUS.ERR ← code, and the block is no longer busy. It
saves no state, changes no mode and transfers control nowhere (R13, R183, R186); there is no return from it (R187). -/
def State.raise (k : ErrorKind) (s : State) : State := { s with err := k.code, running := none }

/-! ### The blob memory (R50; log 4, DESIGN CHOICE) -/

/-- The canonical form: rising addresses, all inside the 32-bit address space (R50). An unlisted address is one that the
run gives no memory, so no entry can equal what an unlisted address reads as. -/
abbrev Memory.wf (m : Memory) : Prop :=
  (m.map Prod.fst).Pairwise (· < ·) ∧ ∀ a ∈ m.map Prod.fst, a < 2 ^ 32

/-- `MemRead(a, 1)` (R13); `none` where the run gives the address no memory. -/
def Memory.read : Memory → Nat → Option Byte
  | [], _ => none
  | (b, v) :: m, a => if a = b then some v else Memory.read m a

/-- `MemWrite(a, 1, v)` (R13), at its place in the rising order. -/
def Memory.write : Memory → Nat → Byte → Memory
  | [], a, v => [(a, v)]
  | (b, u) :: m, a, v =>
    if a < b then (a, v) :: (b, u) :: m
    else if a = b then (a, v) :: m
    else (b, u) :: Memory.write m a v

/-! ### The window (R52, R58) -/

/-- The blob address of RAW[j]: 0x0104 + j (R52). -/
def windowAddr (j : Nat) : Nat := Config.logoOffset + j

/-- Is the address one of the window, [0x0104, 0x0134) (R52)? -/
def inWindow (a : Nat) : Bool := decide (Config.logoOffset ≤ a) && decide (a < Config.logoEnd)

/-- The run gives every window byte memory (R222 duty 2; log 4, DESIGN CHOICE). -/
def windowBacked (m : Memory) : Bool := (List.range 48).all fun j => (m.read (windowAddr j)).isSome

/-- The 48 bytes of the window, read ascending (R58, R92); `none` where one of them has no memory. -/
def windowContents (m : Memory) : Option Raw :=
  if windowBacked m then some (Vector.ofFn fun j : Fin 48 => (m.read (windowAddr j)).getD 0) else none

/-- The 48 reads of a GET_RAW on the blob port, in order (R58). -/
def windowReads : List PortAccess := (List.range 48).map fun j => .read (windowAddr j)

/-- The 48 byte writes of a SET_RAW, in order (R58, R94). -/
def windowWrites (r : Raw) : List (Nat × Byte) := (List.finRange 48).map fun j : Fin 48 => (windowAddr j, r[j])

/-- The bytes are stored one after the other (R58). -/
def storeBytes (m : Memory) : List (Nat × Byte) → Memory
  | [] => m
  | (a, v) :: l => storeBytes (m.write a v) l

/-- The window holds RAW's bytes (R94). -/
def storeWindow (r : Raw) (m : Memory) : Memory := storeBytes m (windowWrites r)

end Sys2Proof.Machine
end

