-- ==== Sys2Proof/Machine/Operands.lean ====
section
/-! DEFINITION. The operands of the commands: fixed registers (R71) and the parameter MIN_BLOB_LEN (R10), with the tests
the commands make on them; and the sample conversion of a pixel operand (R165, R166). -/

namespace Sys2Proof.Machine

/-- The parameter MIN_BLOB_LEN at its default (R10, C1; log 9, DEDUCED). -/
def minBlobLen : Nat := Config.minBlobLenDefault

/-- `BLOB_LEN < minLen`, unsigned (R90). -/
def blobTooSmall (minLen : Nat) (s : State) : Bool := decide (s.blobLen.toNat < minLen)

/-- `LOGO_LEN < 48`, unsigned (R94). -/
def logoTooSmall (s : State) : Bool := decide (s.logoLen.toNat < Config.logoBytes)

/-- The declared shape is 48 wide, 8 high and single-channel (R142). -/
def shapeFits (s : State) : Bool :=
  decide (s.imgW.toNat = Config.width) && decide (s.imgH.toNat = Config.height) && decide (s.imgCh.toNat = 1)

/-- The sample a pixel reads as: 0xFF on, 0x00 off (R165). -/
def sampleOfPixel (p : Bool) : Word := if p then 0xFF else 0x00

/-- The pixel a sample stores: on when bits [7:0] are not all 0 (R166). -/
def pixelOfSample (w : Word) : Bool := w.extractLsb' 0 8 != 0

/-- A length or shape as the host must declare it: saturated to 0xFFFFFFFF (R28 to R32). -/
def saturated (n : Nat) : Nat := min n Config.lengthLimit

/-- The register's value is the true one, saturated, as far as the truth is known (R222 duty 1; log 6, DESIGN CHOICE). -/
def declaresTruly (w : Word) (truth : Option Nat) : Bool :=
  match truth with
  | none => true
  | some n => decide (w.toNat = saturated n)

/-- Blob addresses 0 to BLOB_LEN - 1 are backed by memory, as far as the reach of the memory is known (R222 duty 2; log 6,
DESIGN CHOICE). -/
def blobBacked (s : State) : Bool :=
  match s.facts.backedLen with
  | none => true
  | some n => decide (s.blobLen.toNat ≤ n)

end Sys2Proof.Machine
end

