-- ==== Sys2Proof/Machine/Datapath.lean ====
section
/-! DEFINITION. The pure functions of the codec datapath (41_codec_datapath.md): nibble_extract, nibble_reorder_lut,
bit_reverse, bitmap_packer, the two transforms, and the internal row form of R117. -/

namespace Sys2Proof.Machine

/-! ### nibble_extract -/

/-- Nibble k of a packed logo: the high four bits of byte k div 2 for an even k, the low four for an odd one
(R54, R110). -/
def nibbleOf (r : Raw) (k : Fin 96) : Nibble :=
  let byte := r[k.val / 2]
  if k.val % 2 = 0 then byte.extractLsb' 4 4 else byte.extractLsb' 0 4

/-- `nibble_extract` (R110). -/
def nibbleExtract (r : Raw) : Nibbles := Vector.ofFn (nibbleOf r)

/-! ### nibble_reorder_lut -/

/-- The half, column group and row within the half of nibble index k (R112). -/
def lutHalf (k : Nat) : Nat := k / 48

/-- See `lutHalf`. -/
def lutColumnGroup (k : Nat) : Nat := (k / 4) % 12

/-- See `lutHalf`. -/
def lutRow (k : Nat) : Nat := k % 4

/-- `nibble_reorder_lut`: the block origin (x, y) of nibble index k (R112); a constant ROM, no state (R35). -/
def lutOrigin (k : Nat) : Nat × Nat := (4 * lutColumnGroup k, 4 * lutHalf k + lutRow k)

/-- A block's row lies in the grid (R112). -/
theorem lutOrigin_row_lt (k : Fin 96) : (lutOrigin k).2 < 8 := by
  simp only [lutOrigin, lutHalf, lutRow]; omega

/-- A block's four columns lie in the grid (R112). -/
theorem lutOrigin_column_lt (k : Fin 96) : (lutOrigin k).1 + 3 < 48 := by
  simp only [lutOrigin, lutColumnGroup]; omega

/-- The inverse LUT: the nibble index of the block that pixel (x, y) lies in (R113). -/
def lutIndex (x y : Nat) : Nat := 48 * (y / 4) + 4 * (x / 4) + y % 4

/-! ### bit_reverse -/

/-- `pixel(x + b, y) = n[3 - b]` (R116). -/
def blockPixel (n : Nibble) (b : Nat) : Bool := n.getLsbD (3 - b)

/-- `rev4(n) = {n[0], n[1], n[2], n[3]}` (R117). -/
def bitReverse (n : Nibble) : Nibble :=
  BitVec.ofBool (n.getLsbD 0) ++ BitVec.ofBool (n.getLsbD 1) ++ BitVec.ofBool (n.getLsbD 2) ++ BitVec.ofBool (n.getLsbD 3)

/-- `ROW[x+3:x] <- v`: a row with one block replaced (R117). -/
def placeBlock (row : BitVec 48) (x : Nat) (v : Nibble) : BitVec 48 :=
  (row &&& ~~~(0xF#48 <<< x)) ||| (v.setWidth 48 <<< x)

/-- `rev4(ROW[x+3:x])`: the nibble of a block read back from its row (R117). -/
def readBlock (row : BitVec 48) (x : Nat) : Nibble := bitReverse (row.extractLsb' x 4)

/-- The rows with nibble k placed at its block (R112, R117). -/
def placeNibble (r : Raw) (rows : Rows) (k : Fin 96) : Rows :=
  have hy := lutOrigin_row_lt k
  rows.set (lutOrigin k).2 (placeBlock rows[(lutOrigin k).2] (lutOrigin k).1 (bitReverse (nibbleOf r k)))

/-- DECODE as the datapath does it, into the internal rows, one nibble after the other (R117). Not visible at any
interface (D20). -/
def decodeRows (r : Raw) : Rows := (List.finRange 96).foldl (placeNibble r) (Vector.replicate 8 0)

/-- The pixels of the internal rows: column x is bit x (R117). -/
def gridOfRows (rows : Rows) : Grid := Vector.ofFn fun y => Vector.ofFn fun x => rows[y].getLsbD x

/-- The internal rows of a grid (R117). -/
def rowsOfGrid (g : Grid) : Rows := Vector.ofFn fun y => BitVec.ofFnLE fun x => g[y][x]

/-! ### bitmap_packer -/

/-- Four pixels packed into a nibble, the leftmost at bit 3 (R118). -/
def packPixels (p0 p1 p2 p3 : Bool) : Nibble :=
  BitVec.ofBool p0 ++ BitVec.ofBool p1 ++ BitVec.ofBool p2 ++ BitVec.ofBool p3

/-- `Pk(G, k)`: nibble k of a grid (R118, R121). -/
def packNibble (g : Grid) (k : Fin 96) : Nibble :=
  have hy := lutOrigin_row_lt k
  have hx := lutOrigin_column_lt k
  let x := (lutOrigin k).1
  let row := g[(lutOrigin k).2]
  packPixels (row[x]) (row[x + 1]) (row[x + 2]) (row[x + 3])

/-- `bitmap_packer`, first half: the 96 nibbles of a grid (R118). -/
def packGrid (g : Grid) : Nibbles := Vector.ofFn (packNibble g)

/-- `(N[2j] << 4) | N[2j+1]`: two nibbles joined into a byte (R119). -/
def joinNibbles (hi lo : Nibble) : Byte := (hi.setWidth 8 <<< 4) ||| lo.setWidth 8

/-- `bitmap_packer`, second half: 96 nibbles joined into 48 bytes (R119). -/
def packBytes (n : Nibbles) : Raw := Vector.ofFn fun j => joinNibbles (n[2 * j.val]) (n[2 * j.val + 1])

/-! ### The two transforms -/

/-- One pixel of `Decode(B)` (R120). -/
def decodePixel (r : Raw) (y : Fin 8) (x : Fin 48) : Bool :=
  blockPixel (nibbleOf r ⟨lutIndex x y, by unfold lutIndex; omega⟩) (x.val % 4)

/-- `Decode : Bytes48 -> Grid` (R120). -/
def decodeGrid (r : Raw) : Grid := Vector.ofFn fun y => Vector.ofFn fun x => decodePixel r y x

/-- `Encode : Grid -> Bytes48` (R121). -/
def encodeGrid (g : Grid) : Raw := packBytes (packGrid g)

/-! ### The direct map between bytes and pixels -/

/-- The byte that holds pixel (x, y) (R123). -/
def pixelByte (x y : Nat) : Nat := 24 * (y / 4) + 2 * (x / 4) + (y % 4) / 2

/-- The bit of that byte that holds pixel (x, y) (R123). -/
def pixelBit (x y : Nat) : Nat := 7 - x % 4 - 4 * (y % 2)

end Sys2Proof.Machine
end

