-- ==== Sys2Proof/Machine/Codec.lean ====
section
/-! DEFINITION. The Codec commands DECODE and ENCODE (42_codec_commands.md). -/

namespace Sys2Proof.Machine

/-- DECODE (R140): needs no attached blob (D30) and has no error. -/
def execDecode (s : State) : Host.Outcome State Fault Refusal := .next (s.withPix (decodeGrid s.raw)).complete

/-- ENCODE (R142, R143): needs no attached blob (D30). -/
def execEncode (s : State) : Host.Outcome State Fault Refusal :=
  if shapeFits s then .next (s.withRaw (encodeGrid s.pix)).complete
  else .next (s.raise .invalidDimensions)

end Sys2Proof.Machine
end

