-- ==== Sys2Proof/Machine/Container.lean ====
section
/-! DEFINITION. The Container commands ATTACH, GET_RAW and SET_RAW (40_container.md). -/

namespace Sys2Proof.Machine

/-- ATTACH for any value of the parameter MIN_BLOB_LEN (R10, R90). -/
def attachWith (minLen : Nat) (s : State) : State :=
  if blobTooSmall minLen s then (s.withBlobValid false).raise .tooSmall
  else (s.withBlobValid true).complete

/-- ATTACH (R90, R91). -/
def execAttach (s : State) : Host.Outcome State Fault Refusal := .next (attachWith minBlobLen s)

/-- GET_RAW (R92, R93). A window byte that the run gives no memory is a broken host duty 2 (R222; log 4, DESIGN CHOICE). -/
def execGetRaw (s : State) : Host.Outcome State Fault Refusal :=
  if s.blobValid then
    match windowContents s.blob with
    | some r => .next (s.withRaw r).complete
    | none => .fault .unbackedWindow
  else .next (s.raise .notAttached)

/-- SET_RAW (R94, R95), its checks in the order of R184. A window byte that the run gives no memory is a broken host
duty 2 (R222; log 4, DESIGN CHOICE). -/
def execSetRaw (s : State) : Host.Outcome State Fault Refusal :=
  if s.blobValid then
    if logoTooSmall s then .next (s.raise .logoTooSmall)
    else if windowBacked s.blob then .next (s.withBlob (storeWindow s.raw s.blob)).complete
    else .fault .unbackedWindow
  else .next (s.raise .notAttached)

/-- Does a SET_RAW issued in this state get past its checks (R94)? -/
def setRawStores (s : State) : Bool := s.blobValid && !logoTooSmall s

/-- The accesses a command issues on the blob port, in order: only GET_RAW and SET_RAW issue any, and only when their
checks pass (R20, R58, R92, R94). -/
def portAccesses (i : Instr) (s : State) : List PortAccess :=
  match i with
  | .getRaw => if s.blobValid then windowReads else []
  | .setRaw => if setRawStores s then (windowWrites s.raw).map fun c => .write c.1 c.2 else []
  | .attach => []
  | .decode => []
  | .encode => []

end Sys2Proof.Machine
end

