-- ==== Sys2Proof/Machine/Command.lean ====
section
/-! DEFINITION. Running the accepted command word (R43, R74), the host duties a running command rests on (R191, R222), and
a reset that comes while it runs (R210 to R213). -/

namespace Sys2Proof.Machine

/-- The command relies on a length or shape register that contradicts the known truth: host duty 1 is broken (R191, R222,
D31; log 6, DESIGN CHOICE). GET_RAW and SET_RAW rely on BLOB_LEN only through BLOB_VALID. -/
def declaresFalsely (i : Instr) (s : State) : Bool :=
  match i with
  | .attach => !declaresTruly s.blobLen s.facts.blobLen
  | .getRaw => s.blobValid && !declaresTruly s.blobLen s.facts.blobLen
  | .setRaw =>
    s.blobValid && !(declaresTruly s.blobLen s.facts.blobLen && declaresTruly s.logoLen s.facts.logoLen)
  | .decode => false
  | .encode =>
    !(declaresTruly s.imgW s.facts.imgW && declaresTruly s.imgH s.facts.imgH && declaresTruly s.imgCh s.facts.imgCh)

/-- The command attaches a blob, or works on an attached one, that is known not to be backed as far as BLOB_LEN: host duty 2
is broken (R222, D31; log 6, DESIGN CHOICE). -/
def lacksMemory (i : Instr) (s : State) : Bool :=
  match i with
  | .attach => !blobTooSmall minBlobLen s && !blobBacked s
  | .getRaw => s.blobValid && !blobBacked s
  | .setRaw => s.blobValid && !blobBacked s
  | .decode => false
  | .encode => false

/-- The command is a GET_RAW or SET_RAW on a window on which another instance runs one: host duty 5 is broken (R199, R222,
D31; log 15, DEDUCED). -/
def sharesWindow (i : Instr) (s : State) : Bool :=
  match i with
  | .attach => false
  | .getRaw => s.blobValid && s.peer
  | .setRaw => s.blobValid && s.peer
  | .decode => false
  | .encode => false

/-- The word is a GET_RAW of the attached window while a write to the window that the host wants it to see is not complete:
to issue it breaks host duty 4 (R63, R222, D31). Which writes are wanted is what the run tells (log 16, DESIGN CHOICE). -/
def lateWrite (w : Word) (s : State) : Bool :=
  decide (decode w = .command .getRaw) && s.blobValid && s.wanted.any fun c => inWindow c.1.toNat

/-- The host duty that this state breaks for the running command word, as the fault of the run it is (R191, R222, D31).
The spec gives no moment at which a duty is judged: `stepBusy` judges this at every step from the acceptance of the word to
its completion or abandonment (log 6, DESIGN CHOICE). -/
def brokenDuty (w : Word) (s : State) : Option Fault :=
  match decode w with
  | .command i =>
    if declaresFalsely i s then some .falseDeclaration
    else if lacksMemory i s then some .unbackedBlob
    else if sharesWindow i s then some .windowShared
    else none
  | .illegalCommand => none

/-- The command word runs to its completion: one atomic transition (R43). An illegal word raises IllegalCommand and does
nothing else (R73, V1). The duties it rests on are judged before it, at this step and at each since the word's acceptance
(`brokenDuty`; log 6, DESIGN CHOICE). -/
def runCommand (w : Word) (s : State) : Host.Outcome State Fault Refusal :=
  match decode w with
  | .command i => exec i s
  | .illegalCommand => .next (s.raise .illegalCommand)

/-- The reset state of R210 over any state: STATUS, the lengths and shapes and `busy` are cleared, RAW and PIX hold free
values (R212; log 2, DEDUCED). The blob memory and the host's side keep theirs (R213). -/
def State.applyReset (s : State) : State :=
  { s with
    err := 0
    blobValid := false
    blobLen := 0
    logoLen := 0
    imgW := 0
    imgH := 0
    imgCh := 0
    running := none
    raw := Vector.ofFn fun j => Config.drawnRaw s.draws j
    pix := Vector.ofFn fun y => Vector.ofFn fun x => Config.drawnPixel s.draws y x
    draws := s.draws + 1 }

/-- The window after a SET_RAW was abandoned: each byte is RAW's or its old one (R213, U2; log 5, DESIGN CHOICE). -/
def abandonedWindow (draw : Nat) (old new : Raw) : Raw :=
  Vector.ofFn fun j : Fin 48 => if Config.windowByteWritten draw j then new[j] else old[j]

/-- A SET_RAW past its checks is abandoned by a reset (R213). -/
def abandonSetRaw (s : State) : Host.Outcome State Fault Refusal :=
  match windowContents s.blob with
  | some old => .next (s.withBlob (storeWindow (abandonedWindow s.draws old s.raw) s.blob)).applyReset
  | none => .fault .unbackedWindow

/-- A GET_RAW is abandoned by a reset (R213). It had read some of the window while attached, so a window byte that the run
gives no memory is a broken host duty 2 (R222; log 4, DESIGN CHOICE). -/
def abandonGetRaw (s : State) : Host.Outcome State Fault Refusal :=
  if s.blobValid && !windowBacked s.blob then .fault .unbackedWindow else .next s.applyReset

/-- A reset abandons the command (R213). The RAW or PIX entries it was writing are free values (U3), as all of RAW and PIX
are after any reset. -/
def abandon (i : Instr) (s : State) : Host.Outcome State Fault Refusal :=
  match i with
  | .attach => .next s.applyReset
  | .getRaw => abandonGetRaw s
  | .setRaw => if setRawStores s then abandonSetRaw s else .next s.applyReset
  | .decode => .next s.applyReset
  | .encode => .next s.applyReset

/-- A reset while the command word runs abandons it (R213). -/
def abandonCommand (w : Word) (s : State) : Host.Outcome State Fault Refusal :=
  match decode w with
  | .command i => abandon i s
  | .illegalCommand => .next s.applyReset

/-- The window accesses of another agent that break a duty while this word runs: a write under GET_RAW or SET_RAW, a read
under SET_RAW (R58, R222 duty 3; log 7, DEDUCED). -/
def racesRead (w : Word) (a : BlobAddr) : Bool := inWindow a.toNat && decide (decode w = .command .setRaw)

/-- See `racesRead`. -/
def racesWrite (w : Word) (a : BlobAddr) : Bool :=
  inWindow a.toNat && (decide (decode w = .command .getRaw) || decide (decode w = .command .setRaw))

end Sys2Proof.Machine
end

