-- ==== Sys2Proof/Machine/HostAccess.lean ====
section
/-! DEFINITION. The host's register accesses (43_host_access.md), the register map (R23) and the assembler notation
(R75, R76). -/

namespace Sys2Proof.Machine

/-- `reg_addr & 0xFFC`: the low two bits are ignored (R56, R160). -/
def wordOffset (a : RegAddr) : Nat := (a &&& 0xFFC#12).toNat

/-- Address decode (R160). -/
def region (addr : RegAddr) : Region :=
  let a := wordOffset addr
  if a = 0x000 then .cmd
  else if a = 0x004 then .status
  else if a = 0x008 then .blobLen
  else if a = 0x00C then .logoLen
  else if a = 0x010 then .imgW
  else if a = 0x014 then .imgH
  else if a = 0x018 then .imgCh
  else if h : 0x100 ≤ a ∧ a ≤ 0x1BC then .raw ⟨(a - 0x100) / 4, by omega⟩
  else if h : 0x200 ≤ a ∧ a ≤ 0x7FC then .pix ⟨(a - 0x200) / 4 / 48, by omega⟩ ⟨(a - 0x200) / 4 % 48, by omega⟩
  else .unmapped

/-- The offset of each named register (R23, R75); an unmapped one has no name, and 0x01C stands for it. -/
def Region.offset : Region → RegAddr
  | .cmd => 0x000
  | .status => 0x004
  | .blobLen => 0x008
  | .logoLen => 0x00C
  | .imgW => 0x010
  | .imgH => 0x014
  | .imgCh => 0x018
  | .raw j => BitVec.ofNat 12 (0x100 + 4 * j.val)
  | .pix y x => BitVec.ofNat 12 (0x200 + 4 * (48 * y.val + x.val))
  | .unmapped => 0x01C

/-- Register read, `RD` (R161): the data it returns. -/
def readReg (s : State) (r : Region) : Word :=
  match r with
  | .cmd => 0
  | .status => statusWord s
  | .blobLen => s.blobLen
  | .logoLen => s.logoLen
  | .imgW => s.imgW
  | .imgH => s.imgH
  | .imgCh => s.imgCh
  | .raw j => s.raw[j].setWidth 32
  | .pix y x => sampleOfPixel s.pix[y][x]
  | .unmapped => 0

/-- PIX[y][x] ← p. -/
def setPixel (g : Grid) (y : Fin 8) (x : Fin 48) (p : Bool) : Grid := g.set y (g[y].set x p)

/-- Register write, `WR` (R162). A CMD write is accepted here and the block becomes busy; the command itself is a step of
its own (R24, R38, R220; log 3, DEDUCED). -/
def writeReg (r : Region) (w : Word) (s : State) : State :=
  match r with
  | .cmd => { s with running := some w }
  | .status => s
  | .blobLen => { s with blobLen := w, blobValid := false }
  | .logoLen => { s with logoLen := w }
  | .imgW => { s with imgW := w }
  | .imgH => { s with imgH := w }
  | .imgCh => { s with imgCh := w }
  | .raw j => s.withRaw (s.raw.set j (w.extractLsb' 0 8))
  | .pix y x => s.withPix (setPixel s.pix y x (pixelOfSample w))
  | .unmapped => s

/-! ### Assembler notation (R75, R76) -/

/-- `WR <reg>, <value>` (R75). -/
def wr (r : Region) (w : Word) : HostInput := .regWrite r.offset w

/-- `RD <reg>` (R75). -/
def rd (r : Region) : HostInput := .regRead r.offset

/-- The command pseudo-instructions ATTACH, GET_RAW, SET_RAW, DECODE and ENCODE (R76). -/
def issue (i : Instr) : List HostInput := [wr .cmd (encode i)]

/-- The pseudo-instruction CHECK (R76). -/
def checkStatus : List HostInput := [rd .status]

/-- The pseudo-instruction SETDIM (R76). -/
def setDim : List HostInput := [wr .imgW 48, wr .imgH 8, wr .imgCh 1]

end Sys2Proof.Machine
end

