-- ==== Sys2Proof/Machine/Inputs.lean ====
section
/-! DEFINITION. What one input does to the block and its surroundings (R20, R40, R62, R63, R210, R220). Each operation
here is given the state from which the input is already taken. -/

namespace Sys2Proof.Machine

/-- The host, or another agent, reads a byte of the blob memory (R58, R63, R98). -/
def hostBlobRead (a : BlobAddr) (s : State) : Host.Outcome State Fault Refusal :=
  match s.blob.read a.toNat with
  | some v => .next (s.withHostBlobRdata v)
  | none => .fault .unbackedHostRead

/-- A write of a byte of the blob memory by the host, or another agent, completes; the byte is listed from then on (R40;
log 14, DESIGN CHOICE). -/
def hostBlobWrite (a : BlobAddr) (v : Byte) (s : State) : State := s.withBlob (s.blob.write a.toNat v)

/-- A register read completes: `reg_rdata` carries the data, and no register changes (R57, R161). -/
def acceptRead (a : RegAddr) (s : State) : State := s.withRegRdata (readReg s (region a))

/-- A register write completes (R162). -/
def acceptWrite (a : RegAddr) (w : Word) (s : State) : State := writeReg (region a) w s

/-- A register write is taken. The CMD write of a GET_RAW that is to see a write not yet complete is a broken host duty 4
(R63, R222, D31; log 16, DESIGN CHOICE). -/
def hostRegWrite (a : RegAddr) (w : Word) (s : State) : Host.Outcome State Fault Refusal :=
  if region a = .cmd ∧ lateWrite w s then .fault .lateBlobWrite else .next (acceptWrite a w s)

/-- The host sets out to write a byte that it wants the next GET_RAW to see (R63; log 16, DESIGN CHOICE). -/
def wantWrite (a : BlobAddr) (v : Byte) (s : State) : State := s.withWanted (s.wanted ++ [(a, v)])

/-- The k-th wanted write completes; where there is none, nothing happens (R63; log 16, DESIGN CHOICE). -/
def completeWanted (k : Nat) (s : State) : State :=
  match s.wanted[k]? with
  | some c => (hostBlobWrite c.1 c.2 s).withWanted (s.wanted.eraseIdx k)
  | none => s

/-- The completion of the k-th wanted write is a racing window write under this word (R58, R222 duty 3; log 7, DEDUCED). -/
def racesWanted (w : Word) (k : Nat) (s : State) : Bool :=
  match s.wanted[k]? with
  | some c => racesWrite w c.1
  | none => false

/-- The host's data or its memory change. While attached, memory that no longer reaches as far as BLOB_LEN is a broken host
duty 2 (R222; log 6, DESIGN CHOICE). -/
def learn (f : HostFacts) (s : State) : Host.Outcome State Fault Refusal :=
  if s.blobValid && !blobBacked (s.withFacts f) then .fault .unbackedBlob else .next (s.withFacts f)

/-- Another instance starts a GET_RAW or SET_RAW on the window; beside one that still runs, it breaks host duty 5 (R199,
R222; log 15, DEDUCED). Whether this block runs one is judged by `brokenDuty`. -/
def startPeer (s : State) : Host.Outcome State Fault Refusal :=
  if s.peer then .fault .windowShared else .next (s.withPeer true)

/-- One input reaches the idle block (R20, R210). -/
def inputIdle (x : HostInput) (s : State) : Host.Outcome State Fault Refusal :=
  match x with
  | .regRead a => .next (acceptRead a s)
  | .regWrite a w => hostRegWrite a w s
  | .rst => .next s.applyReset
  | .blobRead a => hostBlobRead a s
  | .blobWrite a v => .next (hostBlobWrite a v s)
  | .newFacts f => learn f s
  | .peerStarts => startPeer s
  | .peerEnds => .next (s.withPeer false)
  | .wantWrite a v => .next (wantWrite a v s)
  | .wantedDone k => .next (completeWanted k s)

/-- Does the input wait until the block is idle? A register access does (R220); `rst` and what happens on the host's side
do not (R58, R213). -/
def HostInput.held : HostInput → Bool
  | .regRead _ => true
  | .regWrite _ _ => true
  | .rst => false
  | .blobRead _ => false
  | .blobWrite _ _ => false
  | .newFacts _ => false
  | .peerStarts => false
  | .peerEnds => false
  | .wantWrite _ _ => false
  | .wantedDone _ => false

/-- One input that is not held arrives while the word runs (R58, R213); a held one leaves the state as it is, and
`stepBusy` never hands one over. -/
def inputBusy (w : Word) (x : HostInput) (s : State) : Host.Outcome State Fault Refusal :=
  match x with
  | .rst => abandonCommand w s
  | .blobRead a => if racesRead w a then .fault .windowRace else hostBlobRead a s
  | .blobWrite a v => if racesWrite w a then .fault .windowRace else .next (hostBlobWrite a v s)
  | .newFacts f => learn f s
  | .peerStarts => startPeer s
  | .peerEnds => .next (s.withPeer false)
  | .wantWrite a v => .next (wantWrite a v s)
  | .wantedDone k => if racesWanted w k s then .fault .windowRace else .next (completeWanted k s)
  | .regRead _ => .next s
  | .regWrite _ _ => .next s

/-- A step of the idle block: it takes the oldest input, or stays as it is (R62, R201; log 12, DEDUCED). -/
def stepIdle (s : State) : Host.Outcome State Fault Refusal :=
  match s.inputs with
  | [] => .next s
  | x :: rest => inputIdle x (s.withInputs rest)

/-- What comes next while the word runs: an input that is not held comes first; otherwise the command completes, and the
held access stays the oldest input (R63, R220; log 3, DEDUCED). -/
def advanceBusy (w : Word) (s : State) : Host.Outcome State Fault Refusal :=
  match s.inputs with
  | [] => runCommand w s
  | x :: rest => if x.held then runCommand w s else inputBusy w x (s.withInputs rest)

/-- A step of the busy block. The host duties of the running command are judged at each such step, so a change of the
host's data while it runs neither hides a broken duty nor escapes the judgement (R191, R222; log 6, DESIGN CHOICE). -/
def stepBusy (w : Word) (s : State) : Host.Outcome State Fault Refusal :=
  match brokenDuty w s with
  | some f => .fault f
  | none => advanceBusy w s

/-- Nothing but held accesses stands at the head of the inputs, so the running command completes next (R220). -/
def State.quiet (s : State) : Bool :=
  match s.inputs with
  | [] => true
  | x :: _ => x.held

/-- The inputs from the first held access on. -/
def heldInputs : List HostInput → List HostInput
  | [] => []
  | x :: l => if x.held then x :: l else heldInputs l

/-- A command word accepted and about to complete (log 13, DESIGN CHOICE). -/
def State.accepting (w : Word) (s : State) : State := { s with running := some w, inputs := heldInputs s.inputs }

end Sys2Proof.Machine
end

