-- ==== Sys2Proof/Machine/Step.lean ====
section
/-! DEFINITION. One step of the machine. There is no program counter and no fetch (R22): the "next instruction" is the
command word the block has accepted. -/

namespace Sys2Proof.Machine

/-- One step: the command the block runs completes, or the oldest input is taken (R20, R43, R220). -/
def step (s : State) : Host.Outcome State Fault Refusal :=
  match s.running with
  | some w => stepBusy w s
  | none => stepIdle s

/-- The state with the command word of `nbits` bits accepted, so that the very next step runs it (log 13, DESIGN CHOICE). -/
def State.withFetchWord (s : State) (nbits w : Nat) : State := s.accepting (tableWord nbits w)

end Sys2Proof.Machine
end

