-- ==== Sys2Proof/Safety.lean ====
section
/-! DEFINITION. What counts as a safe run, in the terms the claims use: the invariant every step keeps, and the host duties
under which every step completes. -/

namespace Sys2Proof.Machine

/-- What holds of every state a run reaches: ERR is a code the block produces (R180, V2, V3), an attached blob is long
enough for the window (R53) and, as far as the reach of the host's memory is known, backed (R222 duty 2; log 6), and the
blob memory is in its canonical form (R50). -/
structure State.Inv (s : State) : Prop where
  errProduced : s.err.toNat ≤ 5
  attachedLongEnough : s.blobValid = true → minBlobLen ≤ s.blobLen.toNat
  attachedBacked : s.blobValid = true → blobBacked s = true
  blobCanonical : s.blob.wf

/-- The window has memory whenever the blob is attached: host duty 2 as far as the block's own accesses go (R222). -/
def State.windowHeld (s : State) : Prop := s.blobValid = true → windowBacked s.blob = true

/-- No host duty that the running command rests on is broken: duties 1, 2 and 5 (R222). -/
def State.dutiesKept (s : State) : Prop := ∀ w, s.running = some w → brokenDuty w s = none

/-- A run of k steps that no broken duty stops. -/
def SafeRun (k : Nat) (s : State) : Prop := ∃ t, Sys2Proof.core.run k s = .next t

end Sys2Proof.Machine
end

