-- ==== Sys2Proof/Certificates/Slice0/Obligations.lean ====
section
/-! DEFINITION. The statements for the provers, from the numbered rules of spec/. -/

open Sys2Proof Sys2Proof.Machine

/-! ### Command encoding (30_encoding.md) -/

/-- R74: decode, by the two fields of the word. -/
def Obligations.DecodeFollowsTheFields : Prop :=
  ∀ w : Word,
    (w.extractLsb' 8 24 ≠ 0 → decode w = .illegalCommand) ∧
    (w.extractLsb' 8 24 = 0 →
      (w.extractLsb' 0 8 = 0x01#8 → decode w = .command .attach) ∧
      (w.extractLsb' 0 8 = 0x02#8 → decode w = .command .getRaw) ∧
      (w.extractLsb' 0 8 = 0x03#8 → decode w = .command .setRaw) ∧
      (w.extractLsb' 0 8 = 0x04#8 → decode w = .command .decode) ∧
      (w.extractLsb' 0 8 = 0x05#8 → decode w = .command .encode) ∧
      ((w.extractLsb' 0 8).toNat = 0 ∨ 6 ≤ (w.extractLsb' 0 8).toNat → decode w = .illegalCommand))

/-- R72: the five full words select the five commands, and no other word selects one. -/
def Obligations.OnlyTheFiveWordsSelectACommand : Prop :=
  ∀ (w : Word) (i : Instr), decode w = .command i ↔
    (w = 0x00000001#32 ∧ i = .attach) ∨ (w = 0x00000002#32 ∧ i = .getRaw) ∨ (w = 0x00000003#32 ∧ i = .setRaw) ∨
    (w = 0x00000004#32 ∧ i = .decode) ∨ (w = 0x00000005#32 ∧ i = .encode)

/-- R70, R72: the encoder and the decoder agree, both ways. -/
def Obligations.EncodeAndDecodeAreInverse : Prop :=
  (∀ i : Instr, decode (encode i) = .command i) ∧ (∀ (w : Word) (i : Instr), decode w = .command i → encode i = w)

/-- R72, R73: table words decode, and words the spec lists as illegal do not (sanity). -/
def Obligations.SampleWordsDecode : Prop :=
  decodeTableWord 32 0x00000001 = some .attach ∧ decodeTableWord 32 0x00000002 = some .getRaw ∧
  decodeTableWord 32 0x00000003 = some .setRaw ∧ decodeTableWord 32 0x00000004 = some .decode ∧
  decodeTableWord 32 0x00000005 = some .encode ∧ decodeTableWord 32 0x00000000 = none ∧
  decodeTableWord 32 0x00000006 = none ∧ decodeTableWord 32 0x00000101 = none ∧ decodeTableWord 32 0x80000004 = none

/-- R73: an illegal word that has been accepted changes ERR to 5 (and ends the command), and nothing else. -/
def Obligations.IllegalWordOnlyReportsCodeFive : Prop :=
  ∀ (s : State) (w : Word), s.running = some w → s.quiet = true →
    (w.extractLsb' 8 24 ≠ 0 ∨ (w.extractLsb' 0 8).toNat = 0 ∨ 6 ≤ (w.extractLsb' 0 8).toNat) →
    step s = .next { s with err := 5, running := none }

/-! ### The step -/

/-- The model's form (log 3, DEDUCED: a command is accepted in one step and completes in another; log 6, DESIGN CHOICE: when
the duties are judged) of R43 and R220: when the accepted word decodes to a command, no input interrupts it and no duty is
broken, the step is that command's meaning at that state. So it is for a word placed with `withFetchWord`, which is the
model's choice alone (log 13, DESIGN CHOICE): the spec has no fetch. -/
def Obligations.StepRunsTheAcceptedCommand : Prop :=
  (∀ (s : State) (w : Word) (i : Instr), s.running = some w → s.quiet = true → decode w = .command i →
    brokenDuty w s = none → step s = exec i s) ∧
  (∀ (s : State) (n : Nat) (i : Instr), n < 2 ^ 32 → decode (BitVec.ofNat 32 n) = .command i →
    brokenDuty (BitVec.ofNat 32 n) s = none →
    step (s.withFetchWord 32 n) = exec i { s with running := some (BitVec.ofNat 32 n), inputs := heldInputs s.inputs })

/-- R24, R220: the idle block accepts a CMD write at any of the four byte offsets of its word, becomes busy with it, and
nothing else changes; unless the write breaks host duty 4 (`lateWrite`, of which WindowRacesStopTheRun says when that is). -/
def Obligations.CmdWriteIsAccepted : Prop :=
  ∀ (s : State) (a : RegAddr) (w : Word) (l : List HostInput), s.running = none → s.inputs = .regWrite a w :: l →
    a.toNat < 4 →
      (lateWrite w s = false → step s = .next { s with running := some w, inputs := l }) ∧
      (∀ t, step s = .next t → t.busy = true)

/-- R220: a register access that arrives while the block is busy is held until the command completes; no input is lost or
reordered in any step; an access is taken only by the idle block. -/
def Obligations.AccessesAreHeldAndKeptInOrder : Prop :=
  (∀ (s t : State) (x : HostInput) (l : List HostInput), s.busy = true → s.inputs = x :: l → x.held = true →
    step s = .next t → t.inputs = s.inputs ∧ t.busy = false) ∧
  (∀ s t : State, step s = .next t → t.inputs = s.inputs ∨ ∃ x, s.inputs = x :: t.inputs) ∧
  (∀ (s t : State) (x : HostInput), step s = .next t → s.inputs = x :: t.inputs → x.held = true → s.busy = false)

/-- R77: CHECK right after a command returns that command's STATUS. -/
def Obligations.CheckReturnsTheCommandsResult : Prop :=
  ∀ (s t : State) (l : List HostInput), s.busy = true → s.inputs = checkStatus ++ l → step s = .next t →
    Sys2Proof.core.run 2 s = .next { t with
      regRdata := BitVec.ofNat 32 (t.err.toNat + 16 * t.blobValid.toNat), inputs := l }

/-- R76: the pseudo-instruction SETDIM declares the shape 48, 8, 1 and changes nothing else; each command
pseudo-instruction is accepted as its own word, GET_RAW while no window write that it is to see is under way (host duty 4 of
R222; log 16, DESIGN CHOICE). -/
def Obligations.PseudoInstructionsExpand : Prop :=
  (∀ (s : State) (l : List HostInput), s.running = none → s.inputs = setDim ++ l →
    Sys2Proof.core.run 3 s = .next { s with imgW := 48, imgH := 8, imgCh := 1, inputs := l }) ∧
  (∀ (s : State) (i : Instr) (l : List HostInput), s.running = none → s.inputs = issue i ++ l →
    (i = .getRaw → s.blobValid = true → ∀ c ∈ s.wanted, c.1.toNat < 0x0104 ∨ 0x0134 ≤ c.1.toNat) →
    ∃ w, decode w = .command i ∧ Sys2Proof.core.run 1 s = .next { s with running := some w, inputs := l })

/-- R224: while the host keeps the duties 1, 2 and 5 of R222, a command that nothing interrupts completes in its step,
whatever word was written. -/
def Obligations.EveryCommandCompletes : Prop :=
  ∀ s : State, s.busy = true → s.quiet = true → s.windowHeld → s.dutiesKept →
    ∃ t, step s = .next t ∧ t.busy = false ∧ t.inputs = s.inputs

/-- R43: until the command completes or is abandoned, what happens on the host's side changes nothing the command reads or
writes: every register keeps its value, so does the word being run, and while that is a GET_RAW or SET_RAW so does every
window byte. That a racing window access stops the run instead is the model's choice (log 7, DEDUCED). -/
def Obligations.RegistersAreFrozenWhileBusy : Prop :=
  ∀ (s t : State) (x : HostInput) (l : List HostInput), s.busy = true → s.inputs = x :: l → x.held = false → x ≠ .rst →
    step s = .next t →
    (t.running = s.running ∧ t.err = s.err ∧ t.blobValid = s.blobValid ∧ t.blobLen = s.blobLen ∧ t.logoLen = s.logoLen ∧
      t.imgW = s.imgW ∧ t.imgH = s.imgH ∧ t.imgCh = s.imgCh ∧ t.raw = s.raw ∧ t.pix = s.pix ∧ t.regRdata = s.regRdata ∧
      t.draws = s.draws ∧ t.inputs = l) ∧
    (∀ w, s.running = some w → decode w = .command .getRaw ∨ decode w = .command .setRaw →
      ∀ j : Fin 48, t.blob.read (windowAddr j) = s.blob.read (windowAddr j))

/-! ### The datapath (41_codec_datapath.md) -/

/-- R124: the round-trip laws; the transform is a bijection. -/
def Obligations.DecodeAndEncodeRoundTrip : Prop :=
  (∀ g : Grid, decodeGrid (encodeGrid g) = g) ∧ (∀ r : Raw, encodeGrid (decodeGrid r) = r) ∧
  Function.Bijective decodeGrid

/-- R114: the LUT and its inverse are mutual inverses between the 96 nibble indices and the 96 block origins. -/
def Obligations.LutIsABijection : Prop :=
  (∀ k < 96, (lutOrigin k).1 % 4 = 0 ∧ (lutOrigin k).1 ≤ 44 ∧ (lutOrigin k).2 < 8 ∧
    lutIndex (lutOrigin k).1 (lutOrigin k).2 = k) ∧
  (∀ x y, x % 4 = 0 → x ≤ 44 → y < 8 → lutIndex x y < 96 ∧ lutOrigin (lutIndex x y) = (x, y))

/-- R110, R119: bytes split into nibbles, high first, and join again; the two are exact inverses. -/
def Obligations.NibblesSplitAndJoin : Prop :=
  (∀ (r : Raw) (j : Fin 48),
    ((nibbleExtract r)[2 * j.val]).toNat = r[j].toNat / 16 ∧ ((nibbleExtract r)[2 * j.val + 1]).toNat = r[j].toNat % 16) ∧
  (∀ (n : Nibbles) (j : Fin 48),
    ((packBytes n)[j]).toNat = 16 * (n[2 * j.val]).toNat + (n[2 * j.val + 1]).toNat) ∧
  (∀ r : Raw, packBytes (nibbleExtract r) = r) ∧ (∀ n : Nibbles, nibbleExtract (packBytes n) = n)

/-- R116: pixel b of a block is bit 3 - b of its nibble; bit 3 is the leftmost pixel. -/
def Obligations.BlockPixelsRunFromTheHighBit : Prop :=
  (∀ (n : Nibble) (b : Fin 4), blockPixel n b = n.getLsbD (3 - b.val)) ∧
  (∀ b : Fin 4, (blockPixel 0x8 b = true ↔ b = 0) ∧ (blockPixel 0x1 b = true ↔ b = 3) ∧ blockPixel 0x0 b = false ∧
    blockPixel 0xF b = true)

/-- R117: bit_reverse reverses the four bits and is its own inverse. -/
def Obligations.BitReverseReverses : Prop :=
  (∀ (n : Nibble) (b : Fin 4), (bitReverse n).getLsbD b = n.getLsbD (3 - b.val)) ∧
  (∀ n : Nibble, bitReverse (bitReverse n) = n)

/-- R117, D20: the datapath's internal rows show exactly the pixels of Decode, and reading a block back from them gives its
nibble; so the row convention is not visible. -/
def Obligations.InternalRowsShowTheDecodedPixels : Prop :=
  (∀ r : Raw, gridOfRows (decodeRows r) = decodeGrid r) ∧
  (∀ (r : Raw) (k : Fin 96) (y : Fin 8), y.val = (lutOrigin k).2 →
    readBlock (decodeRows r)[y] (lutOrigin k).1 = nibbleOf r k) ∧
  (∀ g : Grid, gridOfRows (rowsOfGrid g) = g)

/-- R118: bitmap_packer gathers the four pixels of each block, the leftmost at bit 3. -/
def Obligations.PackerGathersBlocks : Prop :=
  ∀ (g : Grid) (h : Fin 2) (c : Fin 12) (r : Fin 4),
    ((packGrid g)[48 * h.val + 4 * c.val + r.val]).toNat =
      8 * (g[4 * h.val + r.val][4 * c.val]).toNat + 4 * (g[4 * h.val + r.val][4 * c.val + 1]).toNat +
      2 * (g[4 * h.val + r.val][4 * c.val + 2]).toNat + (g[4 * h.val + r.val][4 * c.val + 3]).toNat

/-- R122: where each bit of byte j goes. -/
def Obligations.BytesLandOnTheirPixels : Prop :=
  ∀ j : Fin 48,
    (lutHalf (2 * j.val) = j.val / 24 ∧ lutHalf (2 * j.val + 1) = j.val / 24 ∧
      lutColumnGroup (2 * j.val) = (j.val / 2) % 12 ∧ lutColumnGroup (2 * j.val + 1) = (j.val / 2) % 12 ∧
      lutRow (2 * j.val) = 2 * (j.val % 2) ∧ lutRow (2 * j.val + 1) = 2 * (j.val % 2) + 1) ∧
    ∀ (r : Raw) (b : Fin 4) (y : Fin 8) (x : Fin 48), x.val = 4 * ((j.val / 2) % 12) + b.val →
      (y.val = 4 * (j.val / 24) + 2 * (j.val % 2) → (decodeGrid r)[y][x] = r[j].getLsbD (7 - b.val)) ∧
      (y.val = 4 * (j.val / 24) + 2 * (j.val % 2) + 1 → (decodeGrid r)[y][x] = r[j].getLsbD (3 - b.val))

/-- R123: the byte and the bit of a single pixel, under Decode and under Encode. -/
def Obligations.PixelsComeFromTheirBits : Prop :=
  ∀ (y : Fin 8) (x : Fin 48) (j : Fin 48), j.val = 24 * (y.val / 4) + 2 * (x.val / 4) + (y.val % 4) / 2 →
    (∀ r : Raw, (decodeGrid r)[y][x] = r[j].getLsbD (7 - x.val % 4 - 4 * (y.val % 2))) ∧
    (∀ g : Grid, ((encodeGrid g)[j]).getLsbD (7 - x.val % 4 - 4 * (y.val % 2)) = g[y][x])

/-! ### The Container commands (40_container.md) -/

/-- R90: ATTACH for every value m of the parameter MIN_BLOB_LEN, and the command itself at the default 335. Only ERR,
BLOB_VALID and `busy` change. -/
def Obligations.AttachChecksTheLength : Prop :=
  (∀ (m : Nat) (s : State),
    (s.blobLen.toNat < m → attachWith m s = { s with err := 1, blobValid := false, running := none }) ∧
    (m ≤ s.blobLen.toNat → attachWith m s = { s with err := 0, blobValid := true, running := none })) ∧
  (∀ s : State, exec .attach s = .next (attachWith 335 s))

/-- R91: the outcome of ATTACH depends on BLOB_LEN (and the parameter) alone. -/
def Obligations.AttachDependsOnTheLengthAlone : Prop :=
  ∀ s u : State, s.blobLen = u.blobLen →
    ∃ s' u', exec .attach s = .next s' ∧ exec .attach u = .next u' ∧ s'.err = u'.err ∧ s'.blobValid = u'.blobValid ∧
      s'.blob = s.blob ∧ u'.blob = u.blob

/-- R92, R93: GET_RAW detached raises NotAttached and changes nothing else; attached, with the window backed (host duty 2),
it succeeds, loads all 48 entries from the window and changes nothing else. -/
def Obligations.GetRawLoadsTheWindow : Prop :=
  ∀ s : State,
    (s.blobValid = false → exec .getRaw s = .next { s with err := 4, running := none }) ∧
    (s.blobValid = true → (∀ j : Fin 48, ∃ v, s.blob.read (0x0104 + j.val) = some v) →
      ∃ r : Raw, exec .getRaw s = .next { s with raw := r, err := 0, running := none } ∧
        ∀ j : Fin 48, s.blob.read (0x0104 + j.val) = some r[j])

/-- R94: SET_RAW's two errors in their order, with nothing else changed; otherwise, with the window backed (host duty 2), it
succeeds, stores RAW in the window, and changes nothing else. -/
def Obligations.SetRawStoresTheWindow : Prop :=
  ∀ s : State,
    (s.blobValid = false → exec .setRaw s = .next { s with err := 4, running := none }) ∧
    (s.blobValid = true → s.logoLen.toNat < 48 → exec .setRaw s = .next { s with err := 2, running := none }) ∧
    (s.blobValid = true → 48 ≤ s.logoLen.toNat → (∀ j : Fin 48, ∃ v, s.blob.read (0x0104 + j.val) = some v) →
      ∃ m : Memory, exec .setRaw s = .next { s with blob := m, err := 0, running := none } ∧
        (∀ j : Fin 48, m.read (0x0104 + j.val) = some s.raw[j]) ∧
        (∀ a, a < 0x0104 ∨ 0x0134 ≤ a → m.read a = s.blob.read a))

/-- Model's choice, from host duty 2 of R222. A window byte that the run gives no memory stops GET_RAW while attached and
SET_RAW past its checks (log 4, DESIGN CHOICE), and a reset that cuts one of them off. Memory that is known not to reach as
far as BLOB_LEN stops an ATTACH that would succeed, a GET_RAW and a SET_RAW while attached, and the change by which it is
known while attached (log 6, DESIGN CHOICE; 335 is log 9, DEDUCED). -/
def Obligations.UnbackedWindowStopsTheRun : Prop :=
  (∀ (s : State) (j : Fin 48), s.blobValid = true → s.blob.read (0x0104 + j.val) = none →
    exec .getRaw s = .fault .unbackedWindow ∧ (48 ≤ s.logoLen.toNat → exec .setRaw s = .fault .unbackedWindow) ∧
    (∀ w l, s.running = some w → brokenDuty w s = none → s.inputs = .rst :: l →
      (decode w = .command .getRaw → step s = .fault .unbackedWindow) ∧
      (decode w = .command .setRaw → 48 ≤ s.logoLen.toNat → step s = .fault .unbackedWindow))) ∧
  (∀ (s : State) (w : Word) (n : Nat), s.running = some w → s.facts.backedLen = some n → n < s.blobLen.toNat →
    (decode w = .command .attach ∧ 335 ≤ s.blobLen.toNat) ∨
      ((decode w = .command .getRaw ∨ decode w = .command .setRaw) ∧ s.blobValid = true) →
    ∃ f, step s = .fault f ∧ (s.facts.blobLen = none → s.facts.logoLen = none → f = .unbackedBlob)) ∧
  (∀ (s : State) (g : HostFacts) (l : List HostInput) (n : Nat), s.inputs = .newFacts g :: l → s.blobValid = true →
    g.backedLen = some n → n < s.blobLen.toNat →
    ∃ f, step s = .fault f ∧ (s.dutiesKept → f = .unbackedBlob))

/-- R96: after any command word, every blob byte outside the window holds what it held, and the blob's length, declared or
true, is unchanged; no byte becomes backed or ceases to be. -/
def Obligations.WindowIsolation : Prop :=
  ∀ (w : Word) (s t : State), runCommand w s = .next t →
    (∀ a, a < 0x0104 ∨ 0x0134 ≤ a → t.blob.read a = s.blob.read a) ∧
    (∀ a, (t.blob.read a).isSome = (s.blob.read a).isSome) ∧ t.blobLen = s.blobLen ∧ t.facts = s.facts

/-- R97: a successful SET_RAW, then a GET_RAW with no window byte written in between, leaves RAW as it was at the SET_RAW,
whatever RAW held before the GET_RAW. -/
def Obligations.SetRawThenGetRawKeepsRaw : Prop :=
  ∀ s t u : State, s.blobValid = true → 48 ≤ s.logoLen.toNat → exec .setRaw s = .next t → u.blobValid = true →
    (∀ j : Fin 48, u.blob.read (0x0104 + j.val) = t.blob.read (0x0104 + j.val)) →
    ∃ v, exec .getRaw u = .next v ∧ v.err = 0 ∧ v.raw = s.raw

/-- R41: after a GET_RAW or SET_RAW that succeeds, RAW and the window agree; a host write to RAW does not reach the blob. -/
def Obligations.RawAndWindowAgreeAfterSuccess : Prop :=
  (∀ (i : Instr) (s t : State), i = .getRaw ∨ i = .setRaw → exec i s = .next t → t.err = 0 →
    ∀ j : Fin 48, t.blob.read (0x0104 + j.val) = some t.raw[j]) ∧
  (∀ (s : State) (j : Fin 48) (w : Word), (writeReg (.raw j) w s).blob = s.blob)

/-- R40, R92: GET_RAW learns nothing of the blob outside the window. -/
def Obligations.GetRawReadsOnlyTheWindow : Prop :=
  ∀ (s t : State) (m : Memory), (∀ a, 0x0104 ≤ a → a < 0x0134 → m.read a = s.blob.read a) →
    exec .getRaw s = .next t → exec .getRaw { s with blob := m } = .next { t with blob := m }

/-- R58: the blob-port accesses: the 48 window addresses ascending, reads for GET_RAW, writes of RAW for SET_RAW; none for
another command, for a GET_RAW or SET_RAW while detached, or for a SET_RAW with LOGO_LEN below 48 (R92, R94); and what
SET_RAW leaves is those writes done in that order. -/
def Obligations.PortAccessesAreTheWindowAscending : Prop :=
  (∀ (i : Instr) (s : State), portAccesses i s ≠ [] → i = .getRaw ∨ i = .setRaw) ∧
  (∀ s : State, (s.blobValid = false → portAccesses .getRaw s = []) ∧
    (s.blobValid = false ∨ s.logoLen.toNat < 48 → portAccesses .setRaw s = [])) ∧
  (∀ (s : State) (j : Fin 48), s.blobValid = true →
    (portAccesses .getRaw s).length = 48 ∧ (portAccesses .getRaw s)[j.val]? = some (.read (0x0104 + j.val)) ∧
    (48 ≤ s.logoLen.toNat → (portAccesses .setRaw s).length = 48 ∧
      (portAccesses .setRaw s)[j.val]? = some (.write (0x0104 + j.val) s.raw[j]))) ∧
  (∀ s t : State, exec .setRaw s = .next t →
    t.blob = (portAccesses .setRaw s).foldl
      (fun m x => match x with | .read _ => m | .write a v => m.write a v) s.blob)

/-! ### The Codec commands (42_codec_commands.md) -/

/-- R140, R120: DECODE always succeeds, writes every pixel from bit 3 - b of nibble k, and changes nothing else. -/
def Obligations.DecodeWritesEveryPixel : Prop :=
  ∀ s : State, ∃ g : Grid, exec .decode s = .next { s with pix := g, err := 0, running := none } ∧
    ∀ (y : Fin 8) (x : Fin 48) (j : Fin 48) (k : Nat), k = 48 * (y.val / 4) + 4 * (x.val / 4) + y.val % 4 →
      j.val = k / 2 →
      g[y][x] = if k % 2 = 0 then (s.raw[j].extractLsb' 4 4).getLsbD (3 - x.val % 4)
        else (s.raw[j].extractLsb' 0 4).getLsbD (3 - x.val % 4)

/-- R142, R121: ENCODE with the shape 48, 8, 1 succeeds, packs every byte from the two blocks of its nibbles, and changes
nothing else; with any other shape it raises InvalidDimensions and changes nothing else. -/
def Obligations.EncodePacksEveryByte : Prop :=
  ∀ s : State,
    (s.imgW ≠ 48 ∨ s.imgH ≠ 8 ∨ s.imgCh ≠ 1 → exec .encode s = .next { s with err := 3, running := none }) ∧
    (s.imgW = 48 → s.imgH = 8 → s.imgCh = 1 →
      ∃ r : Raw, exec .encode s = .next { s with raw := r, err := 0, running := none } ∧
        ∀ (j : Fin 48) (b : Fin 4) (y : Fin 8) (x : Fin 48),
          (x.val = 4 * ((2 * j.val / 4) % 12) + b.val → y.val = 4 * (2 * j.val / 48) + 2 * j.val % 4 →
            r[j].getLsbD (7 - b.val) = s.pix[y][x]) ∧
          (x.val = 4 * (((2 * j.val + 1) / 4) % 12) + b.val → y.val = 4 * ((2 * j.val + 1) / 48) + (2 * j.val + 1) % 4 →
            r[j].getLsbD (3 - b.val) = s.pix[y][x]))

/-- R140, R142: whole-buffer corner cases: all 0x00 and all off, all 0xFF and all on. -/
def Obligations.BlankAndFullBuffersConvert : Prop :=
  ∀ s : State,
    ((∀ j : Fin 48, s.raw[j] = 0x00) → ∃ t, exec .decode s = .next t ∧ ∀ (y : Fin 8) (x : Fin 48), t.pix[y][x] = false) ∧
    ((∀ j : Fin 48, s.raw[j] = 0xFF) → ∃ t, exec .decode s = .next t ∧ ∀ (y : Fin 8) (x : Fin 48), t.pix[y][x] = true) ∧
    (s.imgW = 48 → s.imgH = 8 → s.imgCh = 1 →
      ((∀ (y : Fin 8) (x : Fin 48), s.pix[y][x] = false) →
        ∃ t, exec .encode s = .next t ∧ ∀ j : Fin 48, t.raw[j] = 0x00) ∧
      ((∀ (y : Fin 8) (x : Fin 48), s.pix[y][x] = true) →
        ∃ t, exec .encode s = .next t ∧ ∀ j : Fin 48, t.raw[j] = 0xFF))

/-- R141: a DECODE with RAW as the last DECODE left it gives the same PIX, whatever was written to PIX in between. -/
def Obligations.DecodingTwiceGivesTheSameGrid : Prop :=
  ∀ s t u : State, exec .decode s = .next t → u.raw = t.raw → ∃ v, exec .decode u = .next v ∧ v.pix = t.pix

/-- R145: the round trips at the command level, whatever else the host did in between. -/
def Obligations.CommandRoundTrips : Prop :=
  (∀ s t u : State, exec .decode s = .next t → u.pix = t.pix → u.imgW = 48 → u.imgH = 8 → u.imgCh = 1 →
    ∃ v, exec .encode u = .next v ∧ v.err = 0 ∧ v.raw = s.raw) ∧
  (∀ s t u : State, exec .encode s = .next t → t.err = 0 → u.raw = t.raw →
    ∃ v, exec .decode u = .next v ∧ v.err = 0 ∧ v.pix = s.pix)

/-- R144: what DECODE and ENCODE never write. -/
def Obligations.CodecCommandsKeepTheRegisters : Prop :=
  ∀ (i : Instr) (s t : State), i = .decode ∨ i = .encode → exec i s = .next t →
    t.imgW = s.imgW ∧ t.imgH = s.imgH ∧ t.imgCh = s.imgCh ∧ t.blobLen = s.blobLen ∧ t.logoLen = s.logoLen ∧
    t.blobValid = s.blobValid

/-! ### Frames and errors -/

/-- R37, R96, R183: the frame of every command. Each writes ERR and ends `busy`; ATTACH alone may write BLOB_VALID; GET_RAW
and ENCODE alone RAW; DECODE alone PIX; SET_RAW alone memory, and there only the bytes at `windowAddr j`, and none when it
fails. -/
def Obligations.EveryCommandsFrame : Prop :=
  ∀ (i : Instr) (s t : State), exec i s = .next t →
    (t.running = none ∧ t.blobLen = s.blobLen ∧ t.logoLen = s.logoLen ∧ t.imgW = s.imgW ∧ t.imgH = s.imgH ∧
      t.imgCh = s.imgCh ∧ t.regRdata = s.regRdata ∧ t.hostBlobRdata = s.hostBlobRdata ∧ t.inputs = s.inputs ∧
      t.facts = s.facts ∧ t.peer = s.peer ∧ t.wanted = s.wanted ∧ t.draws = s.draws) ∧
    (i ≠ .attach → t.blobValid = s.blobValid) ∧
    (i ≠ .getRaw → i ≠ .encode → t.raw = s.raw) ∧
    (i ≠ .decode → t.pix = s.pix) ∧
    (i ≠ .setRaw ∨ t.err ≠ 0 → ∀ a, t.blob.read a = s.blob.read a) ∧
    (∀ a, (∀ j : Fin 48, a ≠ windowAddr j) → t.blob.read a = s.blob.read a)

/-- R183: a command that raises an error changes ERR (and ends `busy`), BLOB_VALID for a failing ATTACH, and nothing else;
an illegal word included. -/
def Obligations.ErrorsArePrecise : Prop :=
  ∀ (w : Word) (s t : State), runCommand w s = .next t → t.err ≠ 0 →
    (decode w = .command .attach → t = { s with err := t.err, blobValid := false, running := none }) ∧
    (decode w ≠ .command .attach → t = { s with err := t.err, running := none })

/-- R184: the error reported is the first that applies in the order IllegalCommand, NotAttached, LogoTooSmall; ATTACH has
TooSmall only, ENCODE InvalidDimensions only, DECODE none. The bound 335 of ATTACH is the model's value of the parameter
MIN_BLOB_LEN (R10, R90; log 9, DEDUCED). -/
def Obligations.TheFirstErrorIsReported : Prop :=
  ∀ (w : Word) (s t : State), runCommand w s = .next t →
    (decode w = .illegalCommand → t.err = 5) ∧
    (decode w = .command .attach → t.err = if s.blobLen.toNat < 335 then 1 else 0) ∧
    (decode w = .command .getRaw → t.err = if s.blobValid then 0 else 4) ∧
    (decode w = .command .setRaw → t.err = if s.blobValid then (if s.logoLen.toNat < 48 then 2 else 0) else 4) ∧
    (decode w = .command .decode → t.err = 0) ∧
    (decode w = .command .encode → t.err = if s.imgW = 48 ∧ s.imgH = 8 ∧ s.imgCh = 1 then 0 else 3)

/-! ### Register access (43_host_access.md) -/

/-- R160: address decode; bits [1:0] are ignored. -/
def Obligations.AddressesDecodeByTheMap : Prop :=
  ∀ a : RegAddr,
    (a.toNat / 4 = 0 → region a = .cmd) ∧ (a.toNat / 4 = 1 → region a = .status) ∧
    (a.toNat / 4 = 2 → region a = .blobLen) ∧ (a.toNat / 4 = 3 → region a = .logoLen) ∧
    (a.toNat / 4 = 4 → region a = .imgW) ∧ (a.toNat / 4 = 5 → region a = .imgH) ∧ (a.toNat / 4 = 6 → region a = .imgCh) ∧
    (∀ j : Fin 48, a.toNat / 4 = 64 + j.val → region a = .raw j) ∧
    (∀ (y : Fin 8) (x : Fin 48), a.toNat / 4 = 128 + 48 * y.val + x.val → region a = .pix y x) ∧
    ((0x01C ≤ a.toNat ∧ a.toNat < 0x100) ∨ (0x1C0 ≤ a.toNat ∧ a.toNat < 0x200) ∨ 0x800 ≤ a.toNat → region a = .unmapped)

/-- R161: a register read the idle block takes: the data of each region, and no other change. -/
def Obligations.ReadsReturnTheRegister : Prop :=
  ∀ (s : State) (a : RegAddr) (l : List HostInput), s.running = none → s.inputs = .regRead a :: l →
    ∃ v : Word, step s = .next { s with regRdata := v, inputs := l } ∧
      (region a = .cmd ∨ region a = .unmapped → v = 0) ∧
      (region a = .status → v.toNat = s.err.toNat + 16 * s.blobValid.toNat) ∧
      (region a = .blobLen → v = s.blobLen) ∧ (region a = .logoLen → v = s.logoLen) ∧ (region a = .imgW → v = s.imgW) ∧
      (region a = .imgH → v = s.imgH) ∧ (region a = .imgCh → v = s.imgCh) ∧
      (∀ j, region a = .raw j → v.toNat = s.raw[j].toNat) ∧
      (∀ y x, region a = .pix y x → v = if s.pix[y][x] then 0x000000FF else 0x00000000)

/-- R162: a register write the idle block takes: what each region stores, and no other change. A CMD write is taken unless
it breaks host duty 4 (`lateWrite`; log 16, DESIGN CHOICE). -/
def Obligations.WritesStoreTheRegister : Prop :=
  ∀ (s : State) (a : RegAddr) (w : Word) (l : List HostInput), s.running = none → s.inputs = .regWrite a w :: l →
    (region a = .cmd → lateWrite w s = false → step s = .next { s with running := some w, inputs := l }) ∧
    (region a = .status ∨ region a = .unmapped → step s = .next { s with inputs := l }) ∧
    (region a = .blobLen → step s = .next { s with blobLen := w, blobValid := false, inputs := l }) ∧
    (region a = .logoLen → step s = .next { s with logoLen := w, inputs := l }) ∧
    (region a = .imgW → step s = .next { s with imgW := w, inputs := l }) ∧
    (region a = .imgH → step s = .next { s with imgH := w, inputs := l }) ∧
    (region a = .imgCh → step s = .next { s with imgCh := w, inputs := l }) ∧
    (∀ j, region a = .raw j → ∃ r : Raw, step s = .next { s with raw := r, inputs := l } ∧
      ∀ i : Fin 48, r[i].toNat = if i = j then w.toNat % 256 else s.raw[i].toNat) ∧
    (∀ y x, region a = .pix y x → ∃ g : Grid, step s = .next { s with pix := g, inputs := l } ∧
      ∀ (y' : Fin 8) (x' : Fin 48),
        g[y'][x'] = if y' = y ∧ x' = x then decide (w.toNat % 256 ≠ 0) else s.pix[y'][x'])

/-- R62, R163, R164: a length or shape register reads back every value written to it, RAW the low byte, and a write changes
what no other register reads as, but that a BLOB_LEN write clears BLOB_VALID in STATUS. What PIX keeps is R167; STATUS and
CMD keep nothing (R162). -/
def Obligations.ReadsSeeTheLastWrite : Prop :=
  ∀ (s : State) (r q : Region) (w : Word),
    (r = .blobLen ∨ r = .logoLen ∨ r = .imgW ∨ r = .imgH ∨ r = .imgCh → readReg (writeReg r w s) r = w) ∧
    (∀ j, r = .raw j → (readReg (writeReg r w s) r).toNat = w.toNat % 256) ∧
    (q ≠ r → q ≠ .status → readReg (writeReg r w s) q = readReg s q) ∧
    ((writeReg r w s).err = s.err) ∧ ((writeReg r w s).blobValid = if r = .blobLen then false else s.blobValid)

/-- R167: a sample written to PIX reads back as 0xFF or 0x00, and as itself only when it is one of the two. -/
def Obligations.PixelSamplesReadBackAsFullOrNone : Prop :=
  ∀ (s : State) (y : Fin 8) (x : Fin 48) (w : Word),
    (readReg (writeReg (.pix y x) w s) (.pix y x)).toNat = (if w.toNat % 256 = 0 then 0 else 255) ∧
    ((readReg (writeReg (.pix y x) w s) (.pix y x)).toNat = w.toNat % 256 ↔ w.toNat % 256 = 0 ∨ w.toNat % 256 = 255)

/-! ### Whole-machine rules (10_state.md) -/

/-- R27: BLOB_VALID is set by a successful ATTACH only; it is cleared by a failing ATTACH, by any write to BLOB_LEN and by
reset, and by nothing else. The bound 335 of ATTACH is the model's value of the parameter MIN_BLOB_LEN (R10, R90; log 9,
DEDUCED). -/
def Obligations.BlobValidIsWrittenByNamedEventsOnly : Prop :=
  ∀ s t : State, step s = .next t →
    (t.blobValid = true → s.blobValid = true ∨
      ∃ w, s.running = some w ∧ s.quiet = true ∧ decode w = .command .attach ∧ t.err = 0) ∧
    (t.blobValid = false → s.blobValid = false ∨
      (∃ w, s.running = some w ∧ s.quiet = true ∧ decode w = .command .attach ∧ t.err = 1) ∨
      (∃ a w l, s.running = none ∧ s.inputs = .regWrite a w :: l ∧ region a = .blobLen) ∨
      (∃ l, s.inputs = .rst :: l)) ∧
    (∀ w, s.running = some w → s.quiet = true → decode w = .command .attach →
      t.blobValid = decide (335 ≤ s.blobLen.toNat)) ∧
    (∀ a w l, s.running = none → s.inputs = .regWrite a w :: l → region a = .blobLen → t.blobValid = false) ∧
    (∀ l, s.inputs = .rst :: l → t.blobValid = false)

/-- R25, R26: only the completion of a command, and reset, write ERR. -/
def Obligations.ErrIsWrittenByCompletionOnly : Prop :=
  ∀ s t : State, step s = .next t → t.err ≠ s.err →
    (s.busy = true ∧ t.busy = false ∧ s.quiet = true) ∨ (∃ l, s.inputs = .rst :: l ∧ t.err = 0)

/-- R33, R34, R42: RAW changes only by GET_RAW, ENCODE and a host write to one of its entries, PIX only by DECODE and a host
write to one of its entries; reset apart. -/
def Obligations.RawAndPixChangeByNamedEventsOnly : Prop :=
  ∀ s t : State, step s = .next t → (∀ l, s.inputs ≠ .rst :: l) →
    (t.raw ≠ s.raw →
      (∃ w, s.running = some w ∧ t.err = 0 ∧ (decode w = .command .getRaw ∨ decode w = .command .encode)) ∨
      (∃ a w l j, s.running = none ∧ s.inputs = .regWrite a w :: l ∧ region a = .raw j)) ∧
    (t.pix ≠ s.pix →
      (∃ w, s.running = some w ∧ decode w = .command .decode) ∨
      (∃ a w l y x, s.running = none ∧ s.inputs = .regWrite a w :: l ∧ region a = .pix y x))

/-- R28 to R32: the length and shape registers change only by a host write to them; reset apart. -/
def Obligations.LengthsAndShapeChangeByHostWritesOnly : Prop :=
  ∀ s t : State, step s = .next t → (∀ l, s.inputs ≠ .rst :: l) →
    (t.blobLen ≠ s.blobLen → ∃ a w l, s.inputs = .regWrite a w :: l ∧ region a = .blobLen ∧ t.blobLen = w) ∧
    (t.logoLen ≠ s.logoLen → ∃ a w l, s.inputs = .regWrite a w :: l ∧ region a = .logoLen ∧ t.logoLen = w) ∧
    (t.imgW ≠ s.imgW → ∃ a w l, s.inputs = .regWrite a w :: l ∧ region a = .imgW ∧ t.imgW = w) ∧
    (t.imgH ≠ s.imgH → ∃ a w l, s.inputs = .regWrite a w :: l ∧ region a = .imgH ∧ t.imgH = w) ∧
    (t.imgCh ≠ s.imgCh → ∃ a w l, s.inputs = .regWrite a w :: l ∧ region a = .imgCh ∧ t.imgCh = w)

/-- R40, R96: a blob byte changes only by a write from outside to that byte, wanted by the host (log 16) or not, or, inside
the window, by a SET_RAW. -/
def Obligations.BlobBytesChangeByNamedEventsOnly : Prop :=
  ∀ (s t : State) (a : Nat), step s = .next t → t.blob.read a ≠ s.blob.read a →
    (∃ (b : BlobAddr) (v : Byte) (l : List HostInput), s.inputs = .blobWrite b v :: l ∧ b.toNat = a ∧
      t.blob.read a = some v) ∨
    (∃ (k : Nat) (b : BlobAddr) (v : Byte) (l : List HostInput), s.inputs = .wantedDone k :: l ∧
      s.wanted[k]? = some (b, v) ∧ b.toNat = a ∧ t.blob.read a = some v) ∨
    (0x0104 ≤ a ∧ a < 0x0134 ∧ s.blobValid = true ∧ 48 ≤ s.logoLen.toNat ∧
      ∃ w, s.running = some w ∧ decode w = .command .setRaw)

/-! ### Reset (70_reset_and_hazards.md) -/

/-- R210: the reset state, both at `State.reset` and after `rst` reaches the block in any state, busy or idle. -/
def Obligations.ResetClearsTheControlState : Prop :=
  (State.reset.err = 0 ∧ State.reset.blobValid = false ∧ State.reset.blobLen = 0 ∧ State.reset.logoLen = 0 ∧
    State.reset.imgW = 0 ∧ State.reset.imgH = 0 ∧ State.reset.imgCh = 0 ∧ State.reset.busy = false) ∧
  (∀ (s : State) (l : List HostInput), s.inputs = .rst :: l → s.running = none → ∃ t, step s = .next t) ∧
  (∀ (s t : State) (l : List HostInput), s.inputs = .rst :: l → step s = .next t →
    t.err = 0 ∧ t.blobValid = false ∧ t.blobLen = 0 ∧ t.logoLen = 0 ∧ t.imgW = 0 ∧ t.imgH = 0 ∧ t.imgCh = 0 ∧
    t.busy = false ∧ t.inputs = l)

/-- R212, the model's form of it (log 2): after `rst` every bit of RAW and PIX is a free value of the draw that the reset
makes, whatever RAW and PIX held before; the next reset makes another draw. -/
def Obligations.ResetDrawsRawAndPix : Prop :=
  ∀ (s t : State) (l : List HostInput), s.inputs = .rst :: l → step s = .next t →
    (∀ j : Fin 48, t.raw[j] = Config.drawnRaw s.draws j) ∧
    (∀ (y : Fin 8) (x : Fin 48), t.pix[y][x] = Config.drawnPixel s.draws y x) ∧ t.draws = s.draws + 1

/-- R213: a reset never touches the blob memory, but that a SET_RAW it abandons may have written: then each window byte
holds RAW's byte or its old one. Bytes outside the window keep theirs. A reset of a busy block stops only on a broken duty. -/
def Obligations.ResetAbandonsTheCommand : Prop :=
  (∀ (s t : State) (l : List HostInput), s.inputs = .rst :: l → step s = .next t →
    ((∀ w, s.running = some w → decode w ≠ .command .setRaw) ∨ s.blobValid = false ∨ s.logoLen.toNat < 48 →
      ∀ a, t.blob.read a = s.blob.read a) ∧
    (∀ j : Fin 48, t.blob.read (0x0104 + j.val) = s.blob.read (0x0104 + j.val) ∨
      t.blob.read (0x0104 + j.val) = some s.raw[j]) ∧
    (∀ a, a < 0x0104 ∨ 0x0134 ≤ a → t.blob.read a = s.blob.read a)) ∧
  (∀ (s : State) (l : List HostInput), s.inputs = .rst :: l → s.windowHeld → s.dutiesKept →
    ∃ t, step s = .next t ∧ t.busy = false)

/-! ### Host duties as faults of the run (R191, R222) -/

/-- Model's choice, from duties 3, 4 and 5 of R222. A window write, wanted or not, under GET_RAW or SET_RAW, and a window
read under SET_RAW, stop the run (log 7, DEDUCED). The CMD write of a GET_RAW, while attached, stops the run while a window
write that the host wants it to see is not complete, and only then (log 16, DESIGN CHOICE). A GET_RAW or SET_RAW on a window
on which another instance runs one stops the run, whatever comes next, and so does a second other instance beside a first
(log 15, DEDUCED). The fault is the named one unless another duty is broken as well. -/
def Obligations.WindowRacesStopTheRun : Prop :=
  (∀ (s : State) (w : Word) (a : BlobAddr) (v : Byte) (l : List HostInput), s.running = some w →
    0x0104 ≤ a.toNat → a.toNat < 0x0134 →
    (decode w = .command .getRaw ∨ decode w = .command .setRaw) ∧
        (s.inputs = .blobWrite a v :: l ∨ ∃ k, s.inputs = .wantedDone k :: l ∧ s.wanted[k]? = some (a, v)) ∨
      decode w = .command .setRaw ∧ s.inputs = .blobRead a :: l →
    ∃ f, step s = .fault f ∧ (brokenDuty w s = none → f = .windowRace)) ∧
  (∀ (s : State) (a : RegAddr) (w : Word) (l : List HostInput), s.running = none → s.inputs = .regWrite a w :: l →
    (step s = .fault .lateBlobWrite ↔ region a = .cmd ∧ decode w = .command .getRaw ∧ s.blobValid = true ∧
      ∃ c ∈ s.wanted, 0x0104 ≤ c.1.toNat ∧ c.1.toNat < 0x0134)) ∧
  (∀ (s : State) (w : Word), s.running = some w → s.peer = true → s.blobValid = true →
    decode w = .command .getRaw ∨ decode w = .command .setRaw →
    ∃ f, step s = .fault f ∧ (s.facts = HostFacts.unknown → f = .windowShared)) ∧
  (∀ (s : State) (l : List HostInput), s.inputs = .peerStarts :: l →
    (s.peer = true → ∃ f, step s = .fault f ∧ (s.dutiesKept → f = .windowShared)) ∧
    (s.peer = false → s.dutiesKept → step s = .next { s with peer := true, inputs := l }))

/-- R40, R58 (logs 3, 4 and 14): an access of the host, or of another agent, to the blob memory that does not race takes
effect at once, whether the block is idle or busy: a write leaves its byte at its address and nothing else changed; a read
gives the byte there, and stops where the run gives no memory (log 4, DESIGN CHOICE). A wanted write is noted, writes nothing
until it completes, and is a write then (log 16, DESIGN CHOICE). -/
def Obligations.HostBlobAccessesTakeEffect : Prop :=
  ∀ (s : State) (a : BlobAddr) (l : List HostInput), s.dutiesKept →
    (∀ v, s.inputs = .blobWrite a v :: l →
      (∀ w, s.running = some w → 0x0104 ≤ a.toNat → a.toNat < 0x0134 →
        decode w ≠ .command .getRaw ∧ decode w ≠ .command .setRaw) →
      ∃ m : Memory, step s = .next { s with blob := m, inputs := l } ∧ m.read a.toNat = some v ∧
        ∀ b, b ≠ a.toNat → m.read b = s.blob.read b) ∧
    (s.inputs = .blobRead a :: l →
      (∀ w, s.running = some w → 0x0104 ≤ a.toNat → a.toNat < 0x0134 → decode w ≠ .command .setRaw) →
      (∀ v, s.blob.read a.toNat = some v → step s = .next { s with hostBlobRdata := v, inputs := l }) ∧
      (s.blob.read a.toNat = none → step s = .fault .unbackedHostRead)) ∧
    (∀ v, s.inputs = .wantWrite a v :: l → step s = .next { s with wanted := s.wanted ++ [(a, v)], inputs := l }) ∧
    (∀ v k, s.inputs = .wantedDone k :: l → s.wanted[k]? = some (a, v) →
      (∀ w, s.running = some w → 0x0104 ≤ a.toNat → a.toNat < 0x0134 →
        decode w ≠ .command .getRaw ∧ decode w ≠ .command .setRaw) →
      ∃ m : Memory, step s = .next { s with blob := m, wanted := s.wanted.eraseIdx k, inputs := l } ∧
        m.read a.toNat = some v ∧ ∀ b, b ≠ a.toNat → m.read b = s.blob.read b)

/-- Model's choice (log 6, DESIGN CHOICE), from duty 1 of R222: a command that relies on a register which contradicts the
known truth (its value saturated to 0xFFFFFFFF) stops the run, at whichever step from its acceptance to its end the truth is
known, whatever comes next; DECODE relies on none. -/
def Obligations.FalseDeclarationsStopTheRun : Prop :=
  ∀ (s : State) (w : Word) (n : Nat), s.running = some w →
    (s.facts.blobLen = some n → s.blobLen.toNat ≠ min n 0xFFFFFFFF →
      decode w = .command .attach ∨ ((decode w = .command .getRaw ∨ decode w = .command .setRaw) ∧ s.blobValid = true) →
      step s = .fault .falseDeclaration) ∧
    (s.facts.logoLen = some n → s.logoLen.toNat ≠ min n 0xFFFFFFFF → decode w = .command .setRaw → s.blobValid = true →
      step s = .fault .falseDeclaration) ∧
    ((s.facts.imgW = some n ∧ s.imgW.toNat ≠ min n 0xFFFFFFFF) ∨ (s.facts.imgH = some n ∧ s.imgH.toNat ≠ min n 0xFFFFFFFF) ∨
      (s.facts.imgCh = some n ∧ s.imgCh.toNat ≠ min n 0xFFFFFFFF) → decode w = .command .encode →
      step s = .fault .falseDeclaration) ∧
    (decode w = .command .decode → s.quiet = true → ∃ t, step s = .next t)

/-! ### Invariants -/

/-- Every step keeps the invariant: ERR is a code the block produces, an attached blob is long enough and backed as far as
the run tells (R222 duty 2; log 6, DESIGN CHOICE), and the blob memory keeps its canonical form (log 4, DESIGN CHOICE). -/
def Obligations.EveryStepKeepsTheInvariant : Prop :=
  ∀ s t : State, s.Inv → step s = .next t → t.Inv

/-- The reset state meets the invariant. -/
def Obligations.ResetMeetsTheInvariant : Prop := State.reset.Inv

/-- R53: while attached, every window address lies inside the declared blob. -/
def Obligations.AttachedWindowLiesInsideTheBlob : Prop :=
  ∀ s : State, s.Inv → s.blobValid = true →
    335 ≤ s.blobLen.toNat ∧ ∀ a, 0x0104 ≤ a → a < 0x0134 → a < s.blobLen.toNat

/-- R180, V2, V3: ERR reads 0 to 5 after any step from a state that meets the invariant, so codes 6 to 15 are never seen,
and STATUS reads 0 above bit 4. -/
def Obligations.ReservedCodesAreNeverReported : Prop :=
  ∀ s t : State, s.Inv → step s = .next t → t.err.toNat ≤ 5 ∧ (statusWord t).toNat < 32 ∧ (statusWord t).toNat % 16 ≤ 5
end

