-- ==== Sys2Proof/Laws/Datapath.lean ====
section
/-! SUPPORT. One lemma per function of the datapath: what an entry of its result is. -/

namespace Sys2Proof.Machine

@[simp] theorem nibbleExtract_getElem (r : Raw) (k : Nat) (hk : k < 96) :
    (nibbleExtract r)[k] = nibbleOf r ⟨k, hk⟩ := by
  simp [nibbleExtract]

/-- An even nibble is the high half of its byte (R110). -/
theorem nibbleOf_even (r : Raw) (j : Fin 48) : nibbleOf r ⟨2 * j.val, by omega⟩ = r[j].extractLsb' 4 4 := by
  simp [nibbleOf]

/-- An odd nibble is the low half of its byte (R110). -/
theorem nibbleOf_odd (r : Raw) (j : Fin 48) : nibbleOf r ⟨2 * j.val + 1, by omega⟩ = r[j].extractLsb' 0 4 := by
  have h1 : (2 * j.val + 1) / 2 = j.val := by omega
  simp [nibbleOf, h1]

@[simp] theorem decodeGrid_getElem (r : Raw) (y x : Nat) (hy : y < 8) (hx : x < 48) :
    (decodeGrid r)[y][x] = decodePixel r ⟨y, hy⟩ ⟨x, hx⟩ := by
  simp [decodeGrid]

@[simp] theorem packGrid_getElem (g : Grid) (k : Nat) (hk : k < 96) : (packGrid g)[k] = packNibble g ⟨k, hk⟩ := by
  simp [packGrid]

@[simp] theorem packBytes_getElem (n : Nibbles) (j : Nat) (hj : j < 48) :
    (packBytes n)[j] = joinNibbles (n[2 * j]) (n[2 * j + 1]) := by
  simp [packBytes]

@[simp] theorem encodeGrid_getElem (g : Grid) (j : Nat) (hj : j < 48) :
    (encodeGrid g)[j] = joinNibbles (packNibble g ⟨2 * j, by omega⟩) (packNibble g ⟨2 * j + 1, by omega⟩) := by
  simp [encodeGrid]

/-- The bits of a joined byte: the high nibble above the low one (R119). -/
theorem joinNibbles_getLsbD (hi lo : Nibble) (i : Nat) :
    (joinNibbles hi lo).getLsbD i = if i < 4 then lo.getLsbD i else hi.getLsbD (i - 4) := by
  have h8 : ∀ n : Nat, 8 ≤ n → (joinNibbles hi lo).getLsbD n = false := fun n hn => BitVec.getLsbD_of_ge _ _ hn
  rcases Nat.lt_or_ge i 8 with h | h
  · simp only [joinNibbles, BitVec.getLsbD_or, BitVec.getLsbD_shiftLeft, BitVec.getLsbD_setWidth]
    split
    · next h4 => simp [h4, h]
    · next h4 =>
      have : i - 4 < 8 := by omega
      have hl : lo.getLsbD i = false := BitVec.getLsbD_of_ge _ _ (by omega)
      simp [h4, h, this, hl]
  · rw [h8 i h, if_neg (by omega), BitVec.getLsbD_of_ge _ _ (by omega)]

/-- The pixels of a packed nibble: the leftmost at bit 3 (R118). -/
theorem packPixels_blockPixel (p0 p1 p2 p3 : Bool) :
    blockPixel (packPixels p0 p1 p2 p3) 0 = p0 ∧ blockPixel (packPixels p0 p1 p2 p3) 1 = p1 ∧
      blockPixel (packPixels p0 p1 p2 p3) 2 = p2 ∧ blockPixel (packPixels p0 p1 p2 p3) 3 = p3 := by
  cases p0 <;> cases p1 <;> cases p2 <;> cases p3 <;> decide

end Sys2Proof.Machine
end

