-- ==== Sys2Proof/Laws/Decode.lean ====
section
/-! SUPPORT. A command word is its two fields (R70). -/

namespace Sys2Proof

/-- A word is its `zero` field above its `op` field (R70). -/
theorem word_eq_fields (w : Word) : w = zeroField w ++ opField w := by
  apply BitVec.eq_of_toNat_eq
  simp only [zeroField, opField, BitVec.toNat_append, BitVec.extractLsb'_toNat, Nat.shiftRight_zero]
  rw [← Nat.shiftLeft_add_eq_or_of_lt (Nat.mod_lt _ (by decide)), Nat.shiftLeft_eq, Nat.shiftRight_eq_div_pow]
  have := w.isLt
  omega

/-- A word with a clear `zero` field is its opcode. -/
theorem toNat_of_zeroField {w : Word} (h : zeroField w = 0) : w.toNat = (opField w).toNat := by
  have e := congrArg BitVec.toNat (word_eq_fields w)
  have z : (zeroField w).toNat = 0 := by rw [h]; rfl
  rw [BitVec.toNat_append, z, Nat.zero_shiftLeft, Nat.zero_or] at e
  exact e

end Sys2Proof
end

