-- ==== Sys2Proof/Laws/Memory.lean ====
section
/-! SUPPORT. The laws of the blob memory and of its window: read after write, what a write leaves alone, and the canonical
form, each said once. -/

namespace Sys2Proof.Machine

@[simp] theorem Memory.read_nil (a : Nat) : Memory.read [] a = none := rfl

theorem Memory.read_cons (b : Nat) (v : Byte) (m : Memory) (a : Nat) :
    Memory.read ((b, v) :: m) a = if a = b then some v else Memory.read m a := rfl

/-- A byte written reads back. -/
@[simp] theorem Memory.read_write_same (m : Memory) (a : Nat) (v : Byte) : (m.write a v).read a = some v := by
  induction m with
  | nil => simp [Memory.write, Memory.read]
  | cons c m ih =>
    obtain ⟨b, u⟩ := c
    simp only [Memory.write]
    split
    · simp [Memory.read]
    · split
      · simp [Memory.read]
      · next h => simp [Memory.read, h, ih]

/-- A write leaves every other byte alone. -/
theorem Memory.read_write_other (m : Memory) {a b : Nat} (v : Byte) (h : b ≠ a) : (m.write a v).read b = m.read b := by
  induction m with
  | nil => simp [Memory.write, Memory.read, h]
  | cons c m ih =>
    obtain ⟨d, u⟩ := c
    simp only [Memory.write]
    split
    · simp [Memory.read, h]
    · split
      · next e => subst e; simp [Memory.read, h]
      · simp only [Memory.read, ih]

theorem Memory.read_write (m : Memory) (a b : Nat) (v : Byte) :
    (m.write a v).read b = if b = a then some v else m.read b := by
  split
  · next h => rw [h, Memory.read_write_same]
  · next h => exact Memory.read_write_other m v h

/-- The addresses listed after a write: those before, and the one written. -/
theorem Memory.mem_write (m : Memory) (a : Nat) (v : Byte) (x : Nat) :
    x ∈ (m.write a v).map Prod.fst ↔ x = a ∨ x ∈ m.map Prod.fst := by
  induction m with
  | nil => simp [Memory.write]
  | cons c m ih =>
    obtain ⟨b, u⟩ := c
    simp only [Memory.write]
    split
    · simp
    · split
      · next e => subst e; simp
      · simp only [List.map_cons, List.mem_cons, ih]; tauto

/-- A write inside the address space keeps the canonical form. -/
theorem Memory.wf_write {m : Memory} (hm : m.wf) {a : Nat} (ha : a < 2 ^ 32) (v : Byte) : (m.write a v).wf := by
  refine ⟨?_, ?_⟩
  · have hs := hm.1
    clear hm
    induction m with
    | nil => simp [Memory.write]
    | cons c m ih =>
      obtain ⟨b, u⟩ := c
      simp only [List.map_cons, List.pairwise_cons] at hs
      simp only [Memory.write]
      split
      · next hab =>
        simp only [List.map_cons, List.pairwise_cons, List.mem_cons]
        refine ⟨?_, hs⟩
        rintro x (rfl | hx)
        · exact hab
        · exact hab.trans (hs.1 x hx)
      · split
        · next e => subst e; simpa using hs
        · next h1 h2 =>
          simp only [List.map_cons, List.pairwise_cons]
          refine ⟨?_, ih hs.2⟩
          intro x hx
          rcases (Memory.mem_write m a v x).1 hx with rfl | hx
          · omega
          · exact hs.1 x hx
  · intro x hx
    rcases (Memory.mem_write m a v x).1 hx with rfl | hx
    · exact ha
    · exact hm.2 x hx

/-! ### Storing several bytes -/

/-- An address that no stored pair names keeps its byte. -/
theorem read_storeBytes_other (l : List (Nat × Byte)) (m : Memory) (a : Nat) (h : a ∉ l.map Prod.fst) :
    (storeBytes m l).read a = m.read a := by
  induction l generalizing m with
  | nil => rfl
  | cons c l ih =>
    obtain ⟨b, v⟩ := c
    simp only [List.map_cons, List.mem_cons, not_or] at h
    rw [storeBytes, ih _ h.2, Memory.read_write_other _ _ h.1]

/-- A stored byte reads back, when no address is stored to twice. -/
theorem read_storeBytes_mem (l : List (Nat × Byte)) (m : Memory) (hl : (l.map Prod.fst).Nodup) {a : Nat} {v : Byte}
    (h : (a, v) ∈ l) : (storeBytes m l).read a = some v := by
  induction l generalizing m with
  | nil => cases h
  | cons c l ih =>
    obtain ⟨b, u⟩ := c
    simp only [List.map_cons, List.nodup_cons] at hl
    rw [storeBytes]
    rcases List.mem_cons.1 h with h | h
    · obtain ⟨rfl, rfl⟩ := Prod.mk.inj h
      rw [read_storeBytes_other _ _ _ hl.1, Memory.read_write_same]
    · exact ih _ hl.2 h

theorem wf_storeBytes (l : List (Nat × Byte)) {m : Memory} (hm : m.wf) (h : ∀ a ∈ l.map Prod.fst, a < 2 ^ 32) :
    (storeBytes m l).wf := by
  induction l generalizing m with
  | nil => exact hm
  | cons c l ih =>
    obtain ⟨b, v⟩ := c
    simp only [List.map_cons, List.mem_cons, forall_eq_or_imp] at h
    exact ih (Memory.wf_write hm h.1 v) h.2

/-! ### The window -/

theorem windowAddr_eq (j : Nat) : windowAddr j = 0x0104 + j := rfl

theorem inWindow_iff (a : Nat) : inWindow a = true ↔ 0x0104 ≤ a ∧ a < 0x0134 := by
  simp only [inWindow, Bool.and_eq_true, decide_eq_true_eq]
  rfl

/-- An address of the window is that of one RAW entry. -/
theorem inWindow_iff_windowAddr (a : Nat) : inWindow a = true ↔ ∃ j : Fin 48, a = windowAddr j := by
  rw [inWindow_iff]
  constructor
  · intro h
    exact ⟨⟨a - 0x104, by omega⟩, by simp only [windowAddr_eq]; omega⟩
  · rintro ⟨j, rfl⟩
    have := j.isLt
    simp only [windowAddr_eq]; omega

theorem windowBacked_iff (m : Memory) : windowBacked m = true ↔ ∀ j : Fin 48, ∃ v, m.read (windowAddr j) = some v := by
  simp only [windowBacked, List.all_eq_true, List.mem_range, Option.isSome_iff_exists]
  exact ⟨fun h j => h j j.isLt, fun h j hj => h ⟨j, hj⟩⟩

/-- The window's contents are its 48 bytes, and there are some exactly when the window is backed. -/
theorem windowContents_eq_some (m : Memory) (r : Raw) :
    windowContents m = some r ↔ ∀ j : Fin 48, m.read (windowAddr j) = some r[j] := by
  unfold windowContents
  constructor
  · intro h j
    split at h
    · next hb =>
      obtain ⟨v, hv⟩ := (windowBacked_iff m).1 hb j
      obtain rfl := Option.some.inj h
      simp [hv]
    · cases h
  · intro h
    have hr : (Vector.ofFn fun j : Fin 48 => (m.read (windowAddr j)).getD 0) = r := by
      apply Vector.ext
      intro i hi
      simp only [Vector.getElem_ofFn, show m.read (windowAddr i) = some r[i] from h ⟨i, hi⟩, Option.getD_some]
    rw [if_pos ((windowBacked_iff m).2 fun j => ⟨_, h j⟩), hr]

theorem windowContents_eq_none (m : Memory) : windowContents m = none ↔ windowBacked m = false := by
  unfold windowContents
  split <;> simp_all

theorem windowWrites_addrs (r : Raw) : (windowWrites r).map Prod.fst = (List.finRange 48).map fun j : Fin 48 => windowAddr j := by
  simp [windowWrites, Function.comp_def]

theorem mem_windowWrites_addrs (r : Raw) (a : Nat) : a ∈ (windowWrites r).map Prod.fst ↔ inWindow a = true := by
  rw [windowWrites_addrs, inWindow_iff_windowAddr]
  simp [eq_comm]

/-- Inside the window, the bytes stored read back. -/
theorem read_storeWindow_inside (r : Raw) (m : Memory) (j : Fin 48) :
    (storeWindow r m).read (windowAddr j) = some r[j] := by
  apply read_storeBytes_mem
  · rw [windowWrites_addrs]
    refine (List.nodup_finRange 48).map ?_
    intro a b h
    simp only [windowAddr_eq] at h
    omega
  · simp [windowWrites]
    exact ⟨j, rfl, rfl⟩

/-- Outside the window, a store of the window changes nothing. -/
theorem read_storeWindow_outside (r : Raw) (m : Memory) {a : Nat} (h : inWindow a = false) :
    (storeWindow r m).read a = m.read a := by
  apply read_storeBytes_other
  simp [mem_windowWrites_addrs, h]

theorem wf_storeWindow (r : Raw) {m : Memory} (hm : m.wf) : (storeWindow r m).wf := by
  apply wf_storeBytes _ hm
  intro a ha
  have := (inWindow_iff a).1 ((mem_windowWrites_addrs r a).1 ha)
  omega

end Sys2Proof.Machine
end

