-- ==== Sys2Proof/Laws/State.lean ====
section
/-! SUPPORT. One lemma per field per update of State, true by rfl, so that no proof unfolds a record update. -/

namespace Sys2Proof.Machine

/-! ### withBlobValid -/

@[simp] theorem State.withBlobValid_err (v : Bool) (s : State) : (s.withBlobValid v).err = s.err := rfl
@[simp] theorem State.withBlobValid_blobValid (v : Bool) (s : State) : (s.withBlobValid v).blobValid = v := rfl
@[simp] theorem State.withBlobValid_blobLen (v : Bool) (s : State) : (s.withBlobValid v).blobLen = s.blobLen := rfl
@[simp] theorem State.withBlobValid_logoLen (v : Bool) (s : State) : (s.withBlobValid v).logoLen = s.logoLen := rfl
@[simp] theorem State.withBlobValid_imgW (v : Bool) (s : State) : (s.withBlobValid v).imgW = s.imgW := rfl
@[simp] theorem State.withBlobValid_imgH (v : Bool) (s : State) : (s.withBlobValid v).imgH = s.imgH := rfl
@[simp] theorem State.withBlobValid_imgCh (v : Bool) (s : State) : (s.withBlobValid v).imgCh = s.imgCh := rfl
@[simp] theorem State.withBlobValid_raw (v : Bool) (s : State) : (s.withBlobValid v).raw = s.raw := rfl
@[simp] theorem State.withBlobValid_pix (v : Bool) (s : State) : (s.withBlobValid v).pix = s.pix := rfl
@[simp] theorem State.withBlobValid_running (v : Bool) (s : State) : (s.withBlobValid v).running = s.running := rfl
@[simp] theorem State.withBlobValid_blob (v : Bool) (s : State) : (s.withBlobValid v).blob = s.blob := rfl
@[simp] theorem State.withBlobValid_regRdata (v : Bool) (s : State) : (s.withBlobValid v).regRdata = s.regRdata := rfl
@[simp] theorem State.withBlobValid_hostBlobRdata (v : Bool) (s : State) : (s.withBlobValid v).hostBlobRdata = s.hostBlobRdata := rfl
@[simp] theorem State.withBlobValid_inputs (v : Bool) (s : State) : (s.withBlobValid v).inputs = s.inputs := rfl
@[simp] theorem State.withBlobValid_facts (v : Bool) (s : State) : (s.withBlobValid v).facts = s.facts := rfl
@[simp] theorem State.withBlobValid_peer (v : Bool) (s : State) : (s.withBlobValid v).peer = s.peer := rfl
@[simp] theorem State.withBlobValid_wanted (v : Bool) (s : State) : (s.withBlobValid v).wanted = s.wanted := rfl
@[simp] theorem State.withBlobValid_draws (v : Bool) (s : State) : (s.withBlobValid v).draws = s.draws := rfl

/-! ### withRaw -/

@[simp] theorem State.withRaw_err (r : Raw) (s : State) : (s.withRaw r).err = s.err := rfl
@[simp] theorem State.withRaw_blobValid (r : Raw) (s : State) : (s.withRaw r).blobValid = s.blobValid := rfl
@[simp] theorem State.withRaw_blobLen (r : Raw) (s : State) : (s.withRaw r).blobLen = s.blobLen := rfl
@[simp] theorem State.withRaw_logoLen (r : Raw) (s : State) : (s.withRaw r).logoLen = s.logoLen := rfl
@[simp] theorem State.withRaw_imgW (r : Raw) (s : State) : (s.withRaw r).imgW = s.imgW := rfl
@[simp] theorem State.withRaw_imgH (r : Raw) (s : State) : (s.withRaw r).imgH = s.imgH := rfl
@[simp] theorem State.withRaw_imgCh (r : Raw) (s : State) : (s.withRaw r).imgCh = s.imgCh := rfl
@[simp] theorem State.withRaw_raw (r : Raw) (s : State) : (s.withRaw r).raw = r := rfl
@[simp] theorem State.withRaw_pix (r : Raw) (s : State) : (s.withRaw r).pix = s.pix := rfl
@[simp] theorem State.withRaw_running (r : Raw) (s : State) : (s.withRaw r).running = s.running := rfl
@[simp] theorem State.withRaw_blob (r : Raw) (s : State) : (s.withRaw r).blob = s.blob := rfl
@[simp] theorem State.withRaw_regRdata (r : Raw) (s : State) : (s.withRaw r).regRdata = s.regRdata := rfl
@[simp] theorem State.withRaw_hostBlobRdata (r : Raw) (s : State) : (s.withRaw r).hostBlobRdata = s.hostBlobRdata := rfl
@[simp] theorem State.withRaw_inputs (r : Raw) (s : State) : (s.withRaw r).inputs = s.inputs := rfl
@[simp] theorem State.withRaw_facts (r : Raw) (s : State) : (s.withRaw r).facts = s.facts := rfl
@[simp] theorem State.withRaw_peer (r : Raw) (s : State) : (s.withRaw r).peer = s.peer := rfl
@[simp] theorem State.withRaw_wanted (r : Raw) (s : State) : (s.withRaw r).wanted = s.wanted := rfl
@[simp] theorem State.withRaw_draws (r : Raw) (s : State) : (s.withRaw r).draws = s.draws := rfl

/-! ### withPix -/

@[simp] theorem State.withPix_err (g : Grid) (s : State) : (s.withPix g).err = s.err := rfl
@[simp] theorem State.withPix_blobValid (g : Grid) (s : State) : (s.withPix g).blobValid = s.blobValid := rfl
@[simp] theorem State.withPix_blobLen (g : Grid) (s : State) : (s.withPix g).blobLen = s.blobLen := rfl
@[simp] theorem State.withPix_logoLen (g : Grid) (s : State) : (s.withPix g).logoLen = s.logoLen := rfl
@[simp] theorem State.withPix_imgW (g : Grid) (s : State) : (s.withPix g).imgW = s.imgW := rfl
@[simp] theorem State.withPix_imgH (g : Grid) (s : State) : (s.withPix g).imgH = s.imgH := rfl
@[simp] theorem State.withPix_imgCh (g : Grid) (s : State) : (s.withPix g).imgCh = s.imgCh := rfl
@[simp] theorem State.withPix_raw (g : Grid) (s : State) : (s.withPix g).raw = s.raw := rfl
@[simp] theorem State.withPix_pix (g : Grid) (s : State) : (s.withPix g).pix = g := rfl
@[simp] theorem State.withPix_running (g : Grid) (s : State) : (s.withPix g).running = s.running := rfl
@[simp] theorem State.withPix_blob (g : Grid) (s : State) : (s.withPix g).blob = s.blob := rfl
@[simp] theorem State.withPix_regRdata (g : Grid) (s : State) : (s.withPix g).regRdata = s.regRdata := rfl
@[simp] theorem State.withPix_hostBlobRdata (g : Grid) (s : State) : (s.withPix g).hostBlobRdata = s.hostBlobRdata := rfl
@[simp] theorem State.withPix_inputs (g : Grid) (s : State) : (s.withPix g).inputs = s.inputs := rfl
@[simp] theorem State.withPix_facts (g : Grid) (s : State) : (s.withPix g).facts = s.facts := rfl
@[simp] theorem State.withPix_peer (g : Grid) (s : State) : (s.withPix g).peer = s.peer := rfl
@[simp] theorem State.withPix_wanted (g : Grid) (s : State) : (s.withPix g).wanted = s.wanted := rfl
@[simp] theorem State.withPix_draws (g : Grid) (s : State) : (s.withPix g).draws = s.draws := rfl

/-! ### withBlob -/

@[simp] theorem State.withBlob_err (m : Memory) (s : State) : (s.withBlob m).err = s.err := rfl
@[simp] theorem State.withBlob_blobValid (m : Memory) (s : State) : (s.withBlob m).blobValid = s.blobValid := rfl
@[simp] theorem State.withBlob_blobLen (m : Memory) (s : State) : (s.withBlob m).blobLen = s.blobLen := rfl
@[simp] theorem State.withBlob_logoLen (m : Memory) (s : State) : (s.withBlob m).logoLen = s.logoLen := rfl
@[simp] theorem State.withBlob_imgW (m : Memory) (s : State) : (s.withBlob m).imgW = s.imgW := rfl
@[simp] theorem State.withBlob_imgH (m : Memory) (s : State) : (s.withBlob m).imgH = s.imgH := rfl
@[simp] theorem State.withBlob_imgCh (m : Memory) (s : State) : (s.withBlob m).imgCh = s.imgCh := rfl
@[simp] theorem State.withBlob_raw (m : Memory) (s : State) : (s.withBlob m).raw = s.raw := rfl
@[simp] theorem State.withBlob_pix (m : Memory) (s : State) : (s.withBlob m).pix = s.pix := rfl
@[simp] theorem State.withBlob_running (m : Memory) (s : State) : (s.withBlob m).running = s.running := rfl
@[simp] theorem State.withBlob_blob (m : Memory) (s : State) : (s.withBlob m).blob = m := rfl
@[simp] theorem State.withBlob_regRdata (m : Memory) (s : State) : (s.withBlob m).regRdata = s.regRdata := rfl
@[simp] theorem State.withBlob_hostBlobRdata (m : Memory) (s : State) : (s.withBlob m).hostBlobRdata = s.hostBlobRdata := rfl
@[simp] theorem State.withBlob_inputs (m : Memory) (s : State) : (s.withBlob m).inputs = s.inputs := rfl
@[simp] theorem State.withBlob_facts (m : Memory) (s : State) : (s.withBlob m).facts = s.facts := rfl
@[simp] theorem State.withBlob_peer (m : Memory) (s : State) : (s.withBlob m).peer = s.peer := rfl
@[simp] theorem State.withBlob_wanted (m : Memory) (s : State) : (s.withBlob m).wanted = s.wanted := rfl
@[simp] theorem State.withBlob_draws (m : Memory) (s : State) : (s.withBlob m).draws = s.draws := rfl

/-! ### withInputs -/

@[simp] theorem State.withInputs_err (l : List HostInput) (s : State) : (s.withInputs l).err = s.err := rfl
@[simp] theorem State.withInputs_blobValid (l : List HostInput) (s : State) : (s.withInputs l).blobValid = s.blobValid := rfl
@[simp] theorem State.withInputs_blobLen (l : List HostInput) (s : State) : (s.withInputs l).blobLen = s.blobLen := rfl
@[simp] theorem State.withInputs_logoLen (l : List HostInput) (s : State) : (s.withInputs l).logoLen = s.logoLen := rfl
@[simp] theorem State.withInputs_imgW (l : List HostInput) (s : State) : (s.withInputs l).imgW = s.imgW := rfl
@[simp] theorem State.withInputs_imgH (l : List HostInput) (s : State) : (s.withInputs l).imgH = s.imgH := rfl
@[simp] theorem State.withInputs_imgCh (l : List HostInput) (s : State) : (s.withInputs l).imgCh = s.imgCh := rfl
@[simp] theorem State.withInputs_raw (l : List HostInput) (s : State) : (s.withInputs l).raw = s.raw := rfl
@[simp] theorem State.withInputs_pix (l : List HostInput) (s : State) : (s.withInputs l).pix = s.pix := rfl
@[simp] theorem State.withInputs_running (l : List HostInput) (s : State) : (s.withInputs l).running = s.running := rfl
@[simp] theorem State.withInputs_blob (l : List HostInput) (s : State) : (s.withInputs l).blob = s.blob := rfl
@[simp] theorem State.withInputs_regRdata (l : List HostInput) (s : State) : (s.withInputs l).regRdata = s.regRdata := rfl
@[simp] theorem State.withInputs_hostBlobRdata (l : List HostInput) (s : State) : (s.withInputs l).hostBlobRdata = s.hostBlobRdata := rfl
@[simp] theorem State.withInputs_inputs (l : List HostInput) (s : State) : (s.withInputs l).inputs = l := rfl
@[simp] theorem State.withInputs_facts (l : List HostInput) (s : State) : (s.withInputs l).facts = s.facts := rfl
@[simp] theorem State.withInputs_peer (l : List HostInput) (s : State) : (s.withInputs l).peer = s.peer := rfl
@[simp] theorem State.withInputs_wanted (l : List HostInput) (s : State) : (s.withInputs l).wanted = s.wanted := rfl
@[simp] theorem State.withInputs_draws (l : List HostInput) (s : State) : (s.withInputs l).draws = s.draws := rfl

/-! ### withRegRdata -/

@[simp] theorem State.withRegRdata_err (v : Word) (s : State) : (s.withRegRdata v).err = s.err := rfl
@[simp] theorem State.withRegRdata_blobValid (v : Word) (s : State) : (s.withRegRdata v).blobValid = s.blobValid := rfl
@[simp] theorem State.withRegRdata_blobLen (v : Word) (s : State) : (s.withRegRdata v).blobLen = s.blobLen := rfl
@[simp] theorem State.withRegRdata_logoLen (v : Word) (s : State) : (s.withRegRdata v).logoLen = s.logoLen := rfl
@[simp] theorem State.withRegRdata_imgW (v : Word) (s : State) : (s.withRegRdata v).imgW = s.imgW := rfl
@[simp] theorem State.withRegRdata_imgH (v : Word) (s : State) : (s.withRegRdata v).imgH = s.imgH := rfl
@[simp] theorem State.withRegRdata_imgCh (v : Word) (s : State) : (s.withRegRdata v).imgCh = s.imgCh := rfl
@[simp] theorem State.withRegRdata_raw (v : Word) (s : State) : (s.withRegRdata v).raw = s.raw := rfl
@[simp] theorem State.withRegRdata_pix (v : Word) (s : State) : (s.withRegRdata v).pix = s.pix := rfl
@[simp] theorem State.withRegRdata_running (v : Word) (s : State) : (s.withRegRdata v).running = s.running := rfl
@[simp] theorem State.withRegRdata_blob (v : Word) (s : State) : (s.withRegRdata v).blob = s.blob := rfl
@[simp] theorem State.withRegRdata_regRdata (v : Word) (s : State) : (s.withRegRdata v).regRdata = v := rfl
@[simp] theorem State.withRegRdata_hostBlobRdata (v : Word) (s : State) : (s.withRegRdata v).hostBlobRdata = s.hostBlobRdata := rfl
@[simp] theorem State.withRegRdata_inputs (v : Word) (s : State) : (s.withRegRdata v).inputs = s.inputs := rfl
@[simp] theorem State.withRegRdata_facts (v : Word) (s : State) : (s.withRegRdata v).facts = s.facts := rfl
@[simp] theorem State.withRegRdata_peer (v : Word) (s : State) : (s.withRegRdata v).peer = s.peer := rfl
@[simp] theorem State.withRegRdata_wanted (v : Word) (s : State) : (s.withRegRdata v).wanted = s.wanted := rfl
@[simp] theorem State.withRegRdata_draws (v : Word) (s : State) : (s.withRegRdata v).draws = s.draws := rfl

/-! ### withHostBlobRdata -/

@[simp] theorem State.withHostBlobRdata_err (v : Byte) (s : State) : (s.withHostBlobRdata v).err = s.err := rfl
@[simp] theorem State.withHostBlobRdata_blobValid (v : Byte) (s : State) : (s.withHostBlobRdata v).blobValid = s.blobValid := rfl
@[simp] theorem State.withHostBlobRdata_blobLen (v : Byte) (s : State) : (s.withHostBlobRdata v).blobLen = s.blobLen := rfl
@[simp] theorem State.withHostBlobRdata_logoLen (v : Byte) (s : State) : (s.withHostBlobRdata v).logoLen = s.logoLen := rfl
@[simp] theorem State.withHostBlobRdata_imgW (v : Byte) (s : State) : (s.withHostBlobRdata v).imgW = s.imgW := rfl
@[simp] theorem State.withHostBlobRdata_imgH (v : Byte) (s : State) : (s.withHostBlobRdata v).imgH = s.imgH := rfl
@[simp] theorem State.withHostBlobRdata_imgCh (v : Byte) (s : State) : (s.withHostBlobRdata v).imgCh = s.imgCh := rfl
@[simp] theorem State.withHostBlobRdata_raw (v : Byte) (s : State) : (s.withHostBlobRdata v).raw = s.raw := rfl
@[simp] theorem State.withHostBlobRdata_pix (v : Byte) (s : State) : (s.withHostBlobRdata v).pix = s.pix := rfl
@[simp] theorem State.withHostBlobRdata_running (v : Byte) (s : State) : (s.withHostBlobRdata v).running = s.running := rfl
@[simp] theorem State.withHostBlobRdata_blob (v : Byte) (s : State) : (s.withHostBlobRdata v).blob = s.blob := rfl
@[simp] theorem State.withHostBlobRdata_regRdata (v : Byte) (s : State) : (s.withHostBlobRdata v).regRdata = s.regRdata := rfl
@[simp] theorem State.withHostBlobRdata_hostBlobRdata (v : Byte) (s : State) : (s.withHostBlobRdata v).hostBlobRdata = v := rfl
@[simp] theorem State.withHostBlobRdata_inputs (v : Byte) (s : State) : (s.withHostBlobRdata v).inputs = s.inputs := rfl
@[simp] theorem State.withHostBlobRdata_facts (v : Byte) (s : State) : (s.withHostBlobRdata v).facts = s.facts := rfl
@[simp] theorem State.withHostBlobRdata_peer (v : Byte) (s : State) : (s.withHostBlobRdata v).peer = s.peer := rfl
@[simp] theorem State.withHostBlobRdata_wanted (v : Byte) (s : State) : (s.withHostBlobRdata v).wanted = s.wanted := rfl
@[simp] theorem State.withHostBlobRdata_draws (v : Byte) (s : State) : (s.withHostBlobRdata v).draws = s.draws := rfl

/-! ### withFacts -/

@[simp] theorem State.withFacts_err (f : HostFacts) (s : State) : (s.withFacts f).err = s.err := rfl
@[simp] theorem State.withFacts_blobValid (f : HostFacts) (s : State) : (s.withFacts f).blobValid = s.blobValid := rfl
@[simp] theorem State.withFacts_blobLen (f : HostFacts) (s : State) : (s.withFacts f).blobLen = s.blobLen := rfl
@[simp] theorem State.withFacts_logoLen (f : HostFacts) (s : State) : (s.withFacts f).logoLen = s.logoLen := rfl
@[simp] theorem State.withFacts_imgW (f : HostFacts) (s : State) : (s.withFacts f).imgW = s.imgW := rfl
@[simp] theorem State.withFacts_imgH (f : HostFacts) (s : State) : (s.withFacts f).imgH = s.imgH := rfl
@[simp] theorem State.withFacts_imgCh (f : HostFacts) (s : State) : (s.withFacts f).imgCh = s.imgCh := rfl
@[simp] theorem State.withFacts_raw (f : HostFacts) (s : State) : (s.withFacts f).raw = s.raw := rfl
@[simp] theorem State.withFacts_pix (f : HostFacts) (s : State) : (s.withFacts f).pix = s.pix := rfl
@[simp] theorem State.withFacts_running (f : HostFacts) (s : State) : (s.withFacts f).running = s.running := rfl
@[simp] theorem State.withFacts_blob (f : HostFacts) (s : State) : (s.withFacts f).blob = s.blob := rfl
@[simp] theorem State.withFacts_regRdata (f : HostFacts) (s : State) : (s.withFacts f).regRdata = s.regRdata := rfl
@[simp] theorem State.withFacts_hostBlobRdata (f : HostFacts) (s : State) : (s.withFacts f).hostBlobRdata = s.hostBlobRdata := rfl
@[simp] theorem State.withFacts_inputs (f : HostFacts) (s : State) : (s.withFacts f).inputs = s.inputs := rfl
@[simp] theorem State.withFacts_facts (f : HostFacts) (s : State) : (s.withFacts f).facts = f := rfl
@[simp] theorem State.withFacts_peer (f : HostFacts) (s : State) : (s.withFacts f).peer = s.peer := rfl
@[simp] theorem State.withFacts_wanted (f : HostFacts) (s : State) : (s.withFacts f).wanted = s.wanted := rfl
@[simp] theorem State.withFacts_draws (f : HostFacts) (s : State) : (s.withFacts f).draws = s.draws := rfl

/-! ### withPeer -/

@[simp] theorem State.withPeer_err (p : Bool) (s : State) : (s.withPeer p).err = s.err := rfl
@[simp] theorem State.withPeer_blobValid (p : Bool) (s : State) : (s.withPeer p).blobValid = s.blobValid := rfl
@[simp] theorem State.withPeer_blobLen (p : Bool) (s : State) : (s.withPeer p).blobLen = s.blobLen := rfl
@[simp] theorem State.withPeer_logoLen (p : Bool) (s : State) : (s.withPeer p).logoLen = s.logoLen := rfl
@[simp] theorem State.withPeer_imgW (p : Bool) (s : State) : (s.withPeer p).imgW = s.imgW := rfl
@[simp] theorem State.withPeer_imgH (p : Bool) (s : State) : (s.withPeer p).imgH = s.imgH := rfl
@[simp] theorem State.withPeer_imgCh (p : Bool) (s : State) : (s.withPeer p).imgCh = s.imgCh := rfl
@[simp] theorem State.withPeer_raw (p : Bool) (s : State) : (s.withPeer p).raw = s.raw := rfl
@[simp] theorem State.withPeer_pix (p : Bool) (s : State) : (s.withPeer p).pix = s.pix := rfl
@[simp] theorem State.withPeer_running (p : Bool) (s : State) : (s.withPeer p).running = s.running := rfl
@[simp] theorem State.withPeer_blob (p : Bool) (s : State) : (s.withPeer p).blob = s.blob := rfl
@[simp] theorem State.withPeer_regRdata (p : Bool) (s : State) : (s.withPeer p).regRdata = s.regRdata := rfl
@[simp] theorem State.withPeer_hostBlobRdata (p : Bool) (s : State) : (s.withPeer p).hostBlobRdata = s.hostBlobRdata := rfl
@[simp] theorem State.withPeer_inputs (p : Bool) (s : State) : (s.withPeer p).inputs = s.inputs := rfl
@[simp] theorem State.withPeer_facts (p : Bool) (s : State) : (s.withPeer p).facts = s.facts := rfl
@[simp] theorem State.withPeer_peer (p : Bool) (s : State) : (s.withPeer p).peer = p := rfl
@[simp] theorem State.withPeer_wanted (p : Bool) (s : State) : (s.withPeer p).wanted = s.wanted := rfl
@[simp] theorem State.withPeer_draws (p : Bool) (s : State) : (s.withPeer p).draws = s.draws := rfl

/-! ### withWanted -/

@[simp] theorem State.withWanted_err (l : List (BlobAddr × Byte)) (s : State) : (s.withWanted l).err = s.err := rfl
@[simp] theorem State.withWanted_blobValid (l : List (BlobAddr × Byte)) (s : State) : (s.withWanted l).blobValid = s.blobValid := rfl
@[simp] theorem State.withWanted_blobLen (l : List (BlobAddr × Byte)) (s : State) : (s.withWanted l).blobLen = s.blobLen := rfl
@[simp] theorem State.withWanted_logoLen (l : List (BlobAddr × Byte)) (s : State) : (s.withWanted l).logoLen = s.logoLen := rfl
@[simp] theorem State.withWanted_imgW (l : List (BlobAddr × Byte)) (s : State) : (s.withWanted l).imgW = s.imgW := rfl
@[simp] theorem State.withWanted_imgH (l : List (BlobAddr × Byte)) (s : State) : (s.withWanted l).imgH = s.imgH := rfl
@[simp] theorem State.withWanted_imgCh (l : List (BlobAddr × Byte)) (s : State) : (s.withWanted l).imgCh = s.imgCh := rfl
@[simp] theorem State.withWanted_raw (l : List (BlobAddr × Byte)) (s : State) : (s.withWanted l).raw = s.raw := rfl
@[simp] theorem State.withWanted_pix (l : List (BlobAddr × Byte)) (s : State) : (s.withWanted l).pix = s.pix := rfl
@[simp] theorem State.withWanted_running (l : List (BlobAddr × Byte)) (s : State) : (s.withWanted l).running = s.running := rfl
@[simp] theorem State.withWanted_blob (l : List (BlobAddr × Byte)) (s : State) : (s.withWanted l).blob = s.blob := rfl
@[simp] theorem State.withWanted_regRdata (l : List (BlobAddr × Byte)) (s : State) : (s.withWanted l).regRdata = s.regRdata := rfl
@[simp] theorem State.withWanted_hostBlobRdata (l : List (BlobAddr × Byte)) (s : State) : (s.withWanted l).hostBlobRdata = s.hostBlobRdata := rfl
@[simp] theorem State.withWanted_inputs (l : List (BlobAddr × Byte)) (s : State) : (s.withWanted l).inputs = s.inputs := rfl
@[simp] theorem State.withWanted_facts (l : List (BlobAddr × Byte)) (s : State) : (s.withWanted l).facts = s.facts := rfl
@[simp] theorem State.withWanted_peer (l : List (BlobAddr × Byte)) (s : State) : (s.withWanted l).peer = s.peer := rfl
@[simp] theorem State.withWanted_wanted (l : List (BlobAddr × Byte)) (s : State) : (s.withWanted l).wanted = l := rfl
@[simp] theorem State.withWanted_draws (l : List (BlobAddr × Byte)) (s : State) : (s.withWanted l).draws = s.draws := rfl

/-! ### complete -/

@[simp] theorem State.complete_err (s : State) : (s.complete).err = 0 := rfl
@[simp] theorem State.complete_blobValid (s : State) : (s.complete).blobValid = s.blobValid := rfl
@[simp] theorem State.complete_blobLen (s : State) : (s.complete).blobLen = s.blobLen := rfl
@[simp] theorem State.complete_logoLen (s : State) : (s.complete).logoLen = s.logoLen := rfl
@[simp] theorem State.complete_imgW (s : State) : (s.complete).imgW = s.imgW := rfl
@[simp] theorem State.complete_imgH (s : State) : (s.complete).imgH = s.imgH := rfl
@[simp] theorem State.complete_imgCh (s : State) : (s.complete).imgCh = s.imgCh := rfl
@[simp] theorem State.complete_raw (s : State) : (s.complete).raw = s.raw := rfl
@[simp] theorem State.complete_pix (s : State) : (s.complete).pix = s.pix := rfl
@[simp] theorem State.complete_running (s : State) : (s.complete).running = none := rfl
@[simp] theorem State.complete_blob (s : State) : (s.complete).blob = s.blob := rfl
@[simp] theorem State.complete_regRdata (s : State) : (s.complete).regRdata = s.regRdata := rfl
@[simp] theorem State.complete_hostBlobRdata (s : State) : (s.complete).hostBlobRdata = s.hostBlobRdata := rfl
@[simp] theorem State.complete_inputs (s : State) : (s.complete).inputs = s.inputs := rfl
@[simp] theorem State.complete_facts (s : State) : (s.complete).facts = s.facts := rfl
@[simp] theorem State.complete_peer (s : State) : (s.complete).peer = s.peer := rfl
@[simp] theorem State.complete_wanted (s : State) : (s.complete).wanted = s.wanted := rfl
@[simp] theorem State.complete_draws (s : State) : (s.complete).draws = s.draws := rfl

/-! ### raise -/

@[simp] theorem State.raise_err (k : ErrorKind) (s : State) : (s.raise k).err = k.code := rfl
@[simp] theorem State.raise_blobValid (k : ErrorKind) (s : State) : (s.raise k).blobValid = s.blobValid := rfl
@[simp] theorem State.raise_blobLen (k : ErrorKind) (s : State) : (s.raise k).blobLen = s.blobLen := rfl
@[simp] theorem State.raise_logoLen (k : ErrorKind) (s : State) : (s.raise k).logoLen = s.logoLen := rfl
@[simp] theorem State.raise_imgW (k : ErrorKind) (s : State) : (s.raise k).imgW = s.imgW := rfl
@[simp] theorem State.raise_imgH (k : ErrorKind) (s : State) : (s.raise k).imgH = s.imgH := rfl
@[simp] theorem State.raise_imgCh (k : ErrorKind) (s : State) : (s.raise k).imgCh = s.imgCh := rfl
@[simp] theorem State.raise_raw (k : ErrorKind) (s : State) : (s.raise k).raw = s.raw := rfl
@[simp] theorem State.raise_pix (k : ErrorKind) (s : State) : (s.raise k).pix = s.pix := rfl
@[simp] theorem State.raise_running (k : ErrorKind) (s : State) : (s.raise k).running = none := rfl
@[simp] theorem State.raise_blob (k : ErrorKind) (s : State) : (s.raise k).blob = s.blob := rfl
@[simp] theorem State.raise_regRdata (k : ErrorKind) (s : State) : (s.raise k).regRdata = s.regRdata := rfl
@[simp] theorem State.raise_hostBlobRdata (k : ErrorKind) (s : State) : (s.raise k).hostBlobRdata = s.hostBlobRdata := rfl
@[simp] theorem State.raise_inputs (k : ErrorKind) (s : State) : (s.raise k).inputs = s.inputs := rfl
@[simp] theorem State.raise_facts (k : ErrorKind) (s : State) : (s.raise k).facts = s.facts := rfl
@[simp] theorem State.raise_peer (k : ErrorKind) (s : State) : (s.raise k).peer = s.peer := rfl
@[simp] theorem State.raise_wanted (k : ErrorKind) (s : State) : (s.raise k).wanted = s.wanted := rfl
@[simp] theorem State.raise_draws (k : ErrorKind) (s : State) : (s.raise k).draws = s.draws := rfl

/-! ### applyReset -/

@[simp] theorem State.applyReset_err (s : State) : (s.applyReset).err = 0 := rfl
@[simp] theorem State.applyReset_blobValid (s : State) : (s.applyReset).blobValid = false := rfl
@[simp] theorem State.applyReset_blobLen (s : State) : (s.applyReset).blobLen = 0 := rfl
@[simp] theorem State.applyReset_logoLen (s : State) : (s.applyReset).logoLen = 0 := rfl
@[simp] theorem State.applyReset_imgW (s : State) : (s.applyReset).imgW = 0 := rfl
@[simp] theorem State.applyReset_imgH (s : State) : (s.applyReset).imgH = 0 := rfl
@[simp] theorem State.applyReset_imgCh (s : State) : (s.applyReset).imgCh = 0 := rfl
@[simp] theorem State.applyReset_raw (s : State) : (s.applyReset).raw = Vector.ofFn fun j => Config.drawnRaw s.draws j := rfl
@[simp] theorem State.applyReset_pix (s : State) : (s.applyReset).pix = Vector.ofFn fun y => Vector.ofFn fun x => Config.drawnPixel s.draws y x := rfl
@[simp] theorem State.applyReset_running (s : State) : (s.applyReset).running = none := rfl
@[simp] theorem State.applyReset_blob (s : State) : (s.applyReset).blob = s.blob := rfl
@[simp] theorem State.applyReset_regRdata (s : State) : (s.applyReset).regRdata = s.regRdata := rfl
@[simp] theorem State.applyReset_hostBlobRdata (s : State) : (s.applyReset).hostBlobRdata = s.hostBlobRdata := rfl
@[simp] theorem State.applyReset_inputs (s : State) : (s.applyReset).inputs = s.inputs := rfl
@[simp] theorem State.applyReset_facts (s : State) : (s.applyReset).facts = s.facts := rfl
@[simp] theorem State.applyReset_peer (s : State) : (s.applyReset).peer = s.peer := rfl
@[simp] theorem State.applyReset_wanted (s : State) : (s.applyReset).wanted = s.wanted := rfl
@[simp] theorem State.applyReset_draws (s : State) : (s.applyReset).draws = s.draws + 1 := rfl

/-! ### accepting -/

@[simp] theorem State.accepting_err (w : Word) (s : State) : (s.accepting w).err = s.err := rfl
@[simp] theorem State.accepting_blobValid (w : Word) (s : State) : (s.accepting w).blobValid = s.blobValid := rfl
@[simp] theorem State.accepting_blobLen (w : Word) (s : State) : (s.accepting w).blobLen = s.blobLen := rfl
@[simp] theorem State.accepting_logoLen (w : Word) (s : State) : (s.accepting w).logoLen = s.logoLen := rfl
@[simp] theorem State.accepting_imgW (w : Word) (s : State) : (s.accepting w).imgW = s.imgW := rfl
@[simp] theorem State.accepting_imgH (w : Word) (s : State) : (s.accepting w).imgH = s.imgH := rfl
@[simp] theorem State.accepting_imgCh (w : Word) (s : State) : (s.accepting w).imgCh = s.imgCh := rfl
@[simp] theorem State.accepting_raw (w : Word) (s : State) : (s.accepting w).raw = s.raw := rfl
@[simp] theorem State.accepting_pix (w : Word) (s : State) : (s.accepting w).pix = s.pix := rfl
@[simp] theorem State.accepting_running (w : Word) (s : State) : (s.accepting w).running = some w := rfl
@[simp] theorem State.accepting_blob (w : Word) (s : State) : (s.accepting w).blob = s.blob := rfl
@[simp] theorem State.accepting_regRdata (w : Word) (s : State) : (s.accepting w).regRdata = s.regRdata := rfl
@[simp] theorem State.accepting_hostBlobRdata (w : Word) (s : State) : (s.accepting w).hostBlobRdata = s.hostBlobRdata := rfl
@[simp] theorem State.accepting_inputs (w : Word) (s : State) : (s.accepting w).inputs = heldInputs s.inputs := rfl
@[simp] theorem State.accepting_facts (w : Word) (s : State) : (s.accepting w).facts = s.facts := rfl
@[simp] theorem State.accepting_peer (w : Word) (s : State) : (s.accepting w).peer = s.peer := rfl
@[simp] theorem State.accepting_wanted (w : Word) (s : State) : (s.accepting w).wanted = s.wanted := rfl
@[simp] theorem State.accepting_draws (w : Word) (s : State) : (s.accepting w).draws = s.draws := rfl

end Sys2Proof.Machine
end

