-- ==== Sys2Proof/Laws/Exec.lean ====
section
/-! SUPPORT. What each command can do, said once: the next states, and the one fault. Later proofs cite these instead of
unfolding a meaning. -/

namespace Sys2Proof.Machine

theorem ErrorKind.code_le_seven (k : ErrorKind) : k.code.toNat ≤ 7 := by cases k <;> decide

/-- STATUS is ERR with BLOB_VALID above it (R25). -/
theorem statusWord_eq (s : State) : statusWord s = BitVec.ofNat 32 (s.err.toNat + 16 * s.blobValid.toNat) := by
  have : ∀ (e : BitVec 4) (b : Bool), (BitVec.ofBool b ++ e).setWidth 32 = BitVec.ofNat 32 (e.toNat + 16 * b.toNat) := by
    decide
  exact this _ _

theorem blobTooSmall_iff (m : Nat) (s : State) : blobTooSmall m s = true ↔ s.blobLen.toNat < m := by
  simp only [blobTooSmall, decide_eq_true_eq]

theorem logoTooSmall_iff (s : State) : logoTooSmall s = true ↔ s.logoLen.toNat < 48 := by
  simp only [logoTooSmall, decide_eq_true_eq]; rfl

theorem shapeFits_iff (s : State) : shapeFits s = true ↔ s.imgW.toNat = 48 ∧ s.imgH.toNat = 8 ∧ s.imgCh.toNat = 1 := by
  simp only [shapeFits, Bool.and_eq_true, decide_eq_true_eq, and_assoc]; rfl

/-- ATTACH ends in TooSmall and detaches, or succeeds and attaches (R90). -/
theorem attachWith_cases (m : Nat) (s : State) :
    (s.blobLen.toNat < m ∧ attachWith m s = (s.withBlobValid false).raise .tooSmall) ∨
      (m ≤ s.blobLen.toNat ∧ attachWith m s = (s.withBlobValid true).complete) := by
  unfold attachWith
  split
  · next h => exact .inl ⟨(blobTooSmall_iff m s).1 h, rfl⟩
  · next h => exact .inr ⟨by rw [blobTooSmall_iff] at h; omega, rfl⟩

/-- GET_RAW, when it answers a next state (R92). -/
theorem execGetRaw_cases {s t : State} (h : execGetRaw s = .next t) :
    (s.blobValid = false ∧ t = s.raise .notAttached) ∨
      (s.blobValid = true ∧ ∃ r, windowContents s.blob = some r ∧ t = (s.withRaw r).complete) := by
  unfold execGetRaw at h
  split at h
  · next hv =>
    split at h
    · next r hr => cases h; exact .inr ⟨hv, r, hr, rfl⟩
    · cases h
  · next hv => cases h; exact .inl ⟨by simpa using hv, rfl⟩

/-- SET_RAW, when it answers a next state (R94). -/
theorem execSetRaw_cases {s t : State} (h : execSetRaw s = .next t) :
    (s.blobValid = false ∧ t = s.raise .notAttached) ∨
      (s.blobValid = true ∧ s.logoLen.toNat < 48 ∧ t = s.raise .logoTooSmall) ∨
      (s.blobValid = true ∧ 48 ≤ s.logoLen.toNat ∧ windowBacked s.blob = true ∧
        t = (s.withBlob (storeWindow s.raw s.blob)).complete) := by
  unfold execSetRaw at h
  split at h
  · next hv =>
    split at h
    · next hl => cases h; exact .inr (.inl ⟨hv, (logoTooSmall_iff s).1 hl, rfl⟩)
    · next hl =>
      rw [logoTooSmall_iff] at hl
      split at h
      · next hb => cases h; exact .inr (.inr ⟨hv, by omega, hb, rfl⟩)
      · cases h
  · next hv => cases h; exact .inl ⟨by simpa using hv, rfl⟩

/-- ENCODE ends in InvalidDimensions, or loads RAW (R142). -/
theorem execEncode_cases (s : State) :
    (shapeFits s = false ∧ execEncode s = .next (s.raise .invalidDimensions)) ∨
      (shapeFits s = true ∧ execEncode s = .next (s.withRaw (encodeGrid s.pix)).complete) := by
  unfold execEncode
  split
  · next h => exact .inr ⟨h, rfl⟩
  · next h => exact .inl ⟨by simpa using h, rfl⟩

/-- The next states of any command: which of its ends it came to, with the condition of that end. -/
inductive ExecEnds : Instr → State → State → Prop where
  | attachFails (s : State) (h : s.blobLen.toNat < minBlobLen) :
      ExecEnds .attach s ((s.withBlobValid false).raise .tooSmall)
  | attaches (s : State) (h : minBlobLen ≤ s.blobLen.toNat) : ExecEnds .attach s (s.withBlobValid true).complete
  | getRawDetached (s : State) (h : s.blobValid = false) : ExecEnds .getRaw s (s.raise .notAttached)
  | getsRaw (s : State) (r : Raw) (h : s.blobValid = true) (hr : windowContents s.blob = some r) :
      ExecEnds .getRaw s (s.withRaw r).complete
  | setRawDetached (s : State) (h : s.blobValid = false) : ExecEnds .setRaw s (s.raise .notAttached)
  | setRawShort (s : State) (h : s.blobValid = true) (hl : s.logoLen.toNat < 48) :
      ExecEnds .setRaw s (s.raise .logoTooSmall)
  | setsRaw (s : State) (h : s.blobValid = true) (hl : 48 ≤ s.logoLen.toNat) (hb : windowBacked s.blob = true) :
      ExecEnds .setRaw s (s.withBlob (storeWindow s.raw s.blob)).complete
  | decodes (s : State) : ExecEnds .decode s (s.withPix (decodeGrid s.raw)).complete
  | encodeFails (s : State) (h : shapeFits s = false) : ExecEnds .encode s (s.raise .invalidDimensions)
  | encodes (s : State) (h : shapeFits s = true) : ExecEnds .encode s (s.withRaw (encodeGrid s.pix)).complete

/-- What any command can do when it answers a next state. -/
theorem exec_ends {i : Instr} {s t : State} (h : exec i s = .next t) : ExecEnds i s t := by
  cases i with
  | attach =>
    simp only [exec, execAttach, Host.Outcome.next.injEq] at h
    subst h
    rcases attachWith_cases minBlobLen s with ⟨hl, he⟩ | ⟨hl, he⟩ <;> rw [he]
    · exact .attachFails s hl
    · exact .attaches s hl
  | getRaw =>
    rcases execGetRaw_cases h with ⟨hv, rfl⟩ | ⟨hv, r, hr, rfl⟩
    · exact .getRawDetached s hv
    · exact .getsRaw s r hv hr
  | setRaw =>
    rcases execSetRaw_cases h with ⟨hv, rfl⟩ | ⟨hv, hl, rfl⟩ | ⟨hv, hl, hb, rfl⟩
    · exact .setRawDetached s hv
    · exact .setRawShort s hv hl
    · exact .setsRaw s hv hl hb
  | decode => cases h; exact .decodes s
  | encode =>
    rcases execEncode_cases s with ⟨hf, he⟩ | ⟨hf, he⟩ <;> (change execEncode s = _ at h; rw [he] at h; cases h)
    · exact .encodeFails s hf
    · exact .encodes s hf

end Sys2Proof.Machine
end

