-- ==== Sys2Proof/Laws/PerInstr.lean ====
section
/-! SUPPORT. Facts about every command as syntax, one lemma per constructor. -/

namespace Sys2Proof.Laws.WordForm

/-- The command word of a command has the form R70 asks for: its `zero` field is clear, and its `op` field is the command's
own opcode, one of the five of R72. -/
def Statement (i : Instr) : Prop :=
  (wordFields (Sys2Proof.encode i)).wellFormed = true ∧ opField (Sys2Proof.encode i) = opcode i

theorem attach : Statement .attach := ⟨by decide, by decide⟩
theorem getRaw : Statement .getRaw := ⟨by decide, by decide⟩
theorem setRaw : Statement .setRaw := ⟨by decide, by decide⟩
theorem decode : Statement .decode := ⟨by decide, by decide⟩
theorem encode : Statement .encode := ⟨by decide, by decide⟩

end Sys2Proof.Laws.WordForm
end

