-- ==== Sys2Proof/Laws/Step.lean ====
section
/-! SUPPORT. What a step can do, said once. -/

namespace Sys2Proof.Machine

@[simp] theorem held_regRead (a : RegAddr) : (HostInput.regRead a).held = true := rfl
@[simp] theorem held_regWrite (a : RegAddr) (w : Word) : (HostInput.regWrite a w).held = true := rfl
@[simp] theorem held_rst : HostInput.rst.held = false := rfl
@[simp] theorem held_blobRead (a : BlobAddr) : (HostInput.blobRead a).held = false := rfl
@[simp] theorem held_blobWrite (a : BlobAddr) (v : Byte) : (HostInput.blobWrite a v).held = false := rfl
@[simp] theorem held_newFacts (f : HostFacts) : (HostInput.newFacts f).held = false := rfl

@[simp] theorem held_peerStarts : HostInput.peerStarts.held = false := rfl
@[simp] theorem held_peerEnds : HostInput.peerEnds.held = false := rfl
@[simp] theorem held_wantWrite (a : BlobAddr) (v : Byte) : (HostInput.wantWrite a v).held = false := rfl
@[simp] theorem held_wantedDone (k : Nat) : (HostInput.wantedDone k).held = false := rfl

/-! ### Host duties (R222) -/

/-- A duty is broken by registers and by the host's side alone, not by what waits or by the word that is accepted. -/
@[simp] theorem brokenDuty_withInputs (w : Word) (l : List HostInput) (s : State) :
    brokenDuty w (s.withInputs l) = brokenDuty w s := rfl

@[simp] theorem brokenDuty_accepting (w v : Word) (s : State) : brokenDuty w (s.accepting v) = brokenDuty w s := rfl

/-- No duty is broken for a command exactly when none of the three judged is. -/
theorem brokenDuty_eq_none {w : Word} {s : State} {i : Instr} (h : decode w = .command i) :
    brokenDuty w s = none ↔ declaresFalsely i s = false ∧ lacksMemory i s = false ∧ sharesWindow i s = false := by
  simp only [brokenDuty, h]
  cases declaresFalsely i s <;> cases lacksMemory i s <;> cases sharesWindow i s <;> simp

/-- An illegal word rests on no duty (R73). -/
theorem brokenDuty_illegal {w : Word} (s : State) (h : decode w = .illegalCommand) : brokenDuty w s = none := by
  simp only [brokenDuty, h]

/-- `declaresTruly`, said of the known true value (R28 to R32). -/
theorem declaresTruly_some (w : Word) (n : Nat) : declaresTruly w (some n) = true ↔ w.toNat = min n 0xFFFFFFFF := by
  simp only [declaresTruly, decide_eq_true_eq]; rfl

/-- `blobBacked`, said of the known reach of the memory (R222 duty 2). -/
theorem blobBacked_some {s : State} {n : Nat} (h : s.facts.backedLen = some n) :
    blobBacked s = true ↔ s.blobLen.toNat ≤ n := by
  simp only [blobBacked, h, decide_eq_true_eq]

/-- Duty 2 over the whole blob depends on BLOB_LEN and the facts alone. -/
theorem blobBacked_congr {s t : State} (hf : t.facts = s.facts) (hl : t.blobLen = s.blobLen) :
    blobBacked t = blobBacked s := by
  simp only [blobBacked, hf, hl]

@[simp] theorem blobBacked_complete (s : State) : blobBacked s.complete = blobBacked s := rfl
@[simp] theorem blobBacked_raise (k : ErrorKind) (s : State) : blobBacked (s.raise k) = blobBacked s := rfl
@[simp] theorem blobBacked_withBlobValid (v : Bool) (s : State) : blobBacked (s.withBlobValid v) = blobBacked s := rfl
@[simp] theorem blobBacked_withRaw (r : Raw) (s : State) : blobBacked (s.withRaw r) = blobBacked s := rfl
@[simp] theorem blobBacked_withPix (g : Grid) (s : State) : blobBacked (s.withPix g) = blobBacked s := rfl
@[simp] theorem blobBacked_withBlob (m : Memory) (s : State) : blobBacked (s.withBlob m) = blobBacked s := rfl
@[simp] theorem blobBacked_withInputs (l : List HostInput) (s : State) : blobBacked (s.withInputs l) = blobBacked s := rfl
@[simp] theorem blobBacked_withRegRdata (v : Word) (s : State) : blobBacked (s.withRegRdata v) = blobBacked s := rfl
@[simp] theorem blobBacked_withHostBlobRdata (v : Byte) (s : State) : blobBacked (s.withHostBlobRdata v) = blobBacked s := rfl
@[simp] theorem blobBacked_withWanted (l : List (BlobAddr × Byte)) (s : State) : blobBacked (s.withWanted l) = blobBacked s := rfl
@[simp] theorem blobBacked_withPeer (p : Bool) (s : State) : blobBacked (s.withPeer p) = blobBacked s := rfl

/-- A run that tells nothing of the host's data and memory breaks neither duty 1 nor duty 2 (log 6). -/
theorem unknown_keeps {s : State} (hf : s.facts = HostFacts.unknown) (i : Instr) :
    declaresFalsely i s = false ∧ lacksMemory i s = false := by
  cases i <;> simp [declaresFalsely, lacksMemory, declaresTruly, blobBacked, hf, HostFacts.unknown]

/-! ### Commands and inputs -/

/-- What running a command word can do when it answers a next state (R43, R73). -/
theorem runCommand_cases {w : Word} {s t : State} (h : runCommand w s = .next t) :
    (decode w = .illegalCommand ∧ t = s.raise .illegalCommand) ∨ (∃ i, decode w = .command i ∧ exec i s = .next t) := by
  unfold runCommand at h
  split at h
  · next i hi => exact .inr ⟨i, hi, h⟩
  · next hi => cases h; exact .inl ⟨hi, rfl⟩

/-- A command that completes leaves the block idle and the inputs as they are. -/
theorem runCommand_idle {w : Word} {s t : State} (h : runCommand w s = .next t) :
    t.running = none ∧ t.inputs = s.inputs := by
  rcases runCommand_cases h with ⟨-, rfl⟩ | ⟨i, -, he⟩
  · simp
  · cases exec_ends he <;> simp

/-- What a reset while a word runs can do when it answers a next state (R213). -/
theorem abandonCommand_cases {w : Word} {s t : State} (h : abandonCommand w s = .next t) :
    t = s.applyReset ∨
      (decode w = .command .setRaw ∧ setRawStores s = true ∧ ∃ old, windowContents s.blob = some old ∧
        t = (s.withBlob (storeWindow (abandonedWindow s.draws old s.raw) s.blob)).applyReset) := by
  unfold abandonCommand at h
  split at h
  · next i hi =>
    cases i with
    | attach => cases h; exact .inl rfl
    | getRaw =>
      simp only [abandon, abandonGetRaw] at h
      split at h
      · cases h
      · cases h; exact .inl rfl
    | setRaw =>
      simp only [abandon] at h
      split at h
      · next hst =>
        unfold abandonSetRaw at h
        split at h
        · next old ho => cases h; exact .inr ⟨hi, hst, old, ho, rfl⟩
        · cases h
      · cases h; exact .inl rfl
    | decode => cases h; exact .inl rfl
    | encode => cases h; exact .inl rfl
  · cases h; exact .inl rfl

/-- A reset that abandons a command leaves the block idle, detached and without error, and the inputs as they are. -/
theorem abandonCommand_idle {w : Word} {s t : State} (h : abandonCommand w s = .next t) :
    t.running = none ∧ t.inputs = s.inputs ∧ t.err = 0 ∧ t.blobValid = false := by
  rcases abandonCommand_cases h with rfl | ⟨-, -, old, -, rfl⟩ <;> simp

theorem hostBlobRead_cases {a : BlobAddr} {s t : State} (h : hostBlobRead a s = .next t) :
    ∃ v, s.blob.read a.toNat = some v ∧ t = s.withHostBlobRdata v := by
  unfold hostBlobRead at h
  split at h
  · next v hv => cases h; exact ⟨v, hv, rfl⟩
  · cases h

theorem learn_cases {f : HostFacts} {s t : State} (h : learn f s = .next t) :
    (s.blobValid = true → blobBacked (s.withFacts f) = true) ∧ t = s.withFacts f := by
  unfold learn at h
  split at h
  · cases h
  · next hb => cases h; exact ⟨by simpa using hb, rfl⟩

theorem startPeer_cases {s t : State} (h : startPeer s = .next t) : s.peer = false ∧ t = s.withPeer true := by
  unfold startPeer at h
  split at h
  · cases h
  · next hp => cases h; exact ⟨by simpa using hp, rfl⟩

/-- Duty 4 is broken by a GET_RAW, while attached, that is to see a window write not yet complete (R222). -/
theorem lateWrite_iff (w : Word) (s : State) :
    lateWrite w s = true ↔
      decode w = .command .getRaw ∧ s.blobValid = true ∧ ∃ c ∈ s.wanted, 0x0104 ≤ c.1.toNat ∧ c.1.toNat < 0x0134 := by
  simp only [lateWrite, Bool.and_eq_true, decide_eq_true_eq, List.any_eq_true, inWindow_iff, and_assoc]

@[simp] theorem lateWrite_withInputs (w : Word) (l : List HostInput) (s : State) :
    lateWrite w (s.withInputs l) = lateWrite w s := rfl

theorem hostRegWrite_cases {a : RegAddr} {w : Word} {s t : State} (h : hostRegWrite a w s = .next t) :
    (region a = .cmd → lateWrite w s = false) ∧ t = acceptWrite a w s := by
  unfold hostRegWrite at h
  split at h
  · cases h
  · next hl => cases h; exact ⟨fun hc => by simpa [hc] using hl, rfl⟩

/-- A CMD write that breaks duty 4 stops (R222); every other register write is taken. -/
theorem hostRegWrite_of_late {a : RegAddr} {w : Word} {s : State} (ha : region a = .cmd) (hl : lateWrite w s = true) :
    hostRegWrite a w s = .fault .lateBlobWrite := by
  simp only [hostRegWrite, ha, hl, and_self, if_true]

theorem hostRegWrite_of_kept {a : RegAddr} {w : Word} {s : State} (h : region a = .cmd → lateWrite w s = false) :
    hostRegWrite a w s = .next (acceptWrite a w s) := by
  unfold hostRegWrite
  rw [if_neg fun hc => by simp [h hc.1] at hc]

/-- A wanted write that completes is a write of its byte, and no longer under way. -/
theorem completeWanted_some {k : Nat} {s : State} {a : BlobAddr} {v : Byte} (h : s.wanted[k]? = some (a, v)) :
    completeWanted k s = (hostBlobWrite a v s).withWanted (s.wanted.eraseIdx k) := by
  simp only [completeWanted, h]

theorem completeWanted_none {k : Nat} {s : State} (h : s.wanted[k]? = none) : completeWanted k s = s := by
  simp only [completeWanted, h]

theorem racesWanted_some {w : Word} {k : Nat} {s : State} {a : BlobAddr} {v : Byte} (h : s.wanted[k]? = some (a, v)) :
    racesWanted w k s = racesWrite w a := by
  simp only [racesWanted, h]

/-! ### Steps -/

/-- A broken duty of the running command stops the step, whatever comes next (R222). -/
theorem step_of_broken {s : State} {w : Word} {f : Fault} (h : s.running = some w) (hf : brokenDuty w s = some f) :
    step s = .fault f := by
  simp only [step, h, stepBusy, hf]

/-- A busy block whose duties are kept goes on. -/
theorem step_of_kept {s : State} {w : Word} (h : s.running = some w) (hd : brokenDuty w s = none) :
    step s = advanceBusy w s := by
  simp only [step, h, stepBusy, hd]

/-- A busy block that nothing interrupts and whose duties are kept runs its command word (R220). -/
theorem step_of_quiet {s : State} {w : Word} (h : s.running = some w) (hd : brokenDuty w s = none) (q : s.quiet = true) :
    step s = runCommand w s := by
  rw [step_of_kept h hd, advanceBusy]
  unfold State.quiet at q
  split at q <;> simp_all

/-- A busy block whose duties are kept takes an input that is not held (R58, R213). -/
theorem step_of_interrupted {s : State} {w : Word} {x : HostInput} {l : List HostInput} (h : s.running = some w)
    (hd : brokenDuty w s = none) (hi : s.inputs = x :: l) (hx : x.held = false) :
    step s = inputBusy w x (s.withInputs l) := by
  rw [step_of_kept h hd]
  simp only [advanceBusy, hi, hx, Bool.false_eq_true, if_false]

/-- A step of the idle block with an input takes it (R62). -/
theorem step_of_idle {s : State} {x : HostInput} {l : List HostInput} (h : s.running = none) (hi : s.inputs = x :: l) :
    step s = inputIdle x (s.withInputs l) := by
  simp only [step, h, stepIdle, hi]

/-- Everything a step can do when it answers a next state: one constructor per kind of event, with its condition. -/
inductive StepEnds : State → State → Prop where
  /-- A running command completes; the inputs stay as they are (R220). -/
  | commandEnds (s : State) (w : Word) (t : State) (hw : s.running = some w) (hd : brokenDuty w s = none)
      (hq : s.quiet = true) (hr : runCommand w s = .next t) : StepEnds s t
  /-- The block is idle and nothing comes (R201). -/
  | idles (s : State) (hw : s.running = none) (hi : s.inputs = []) : StepEnds s s
  | reads (s : State) (a : RegAddr) (l : List HostInput) (hw : s.running = none) (hi : s.inputs = .regRead a :: l) :
      StepEnds s (acceptRead a (s.withInputs l))
  | writes (s : State) (a : RegAddr) (v : Word) (l : List HostInput) (hw : s.running = none)
      (hi : s.inputs = .regWrite a v :: l) (hl : region a = .cmd → lateWrite v s = false) :
      StepEnds s (acceptWrite a v (s.withInputs l))
  /-- A reset finds the block idle (R210). -/
  | resets (s : State) (l : List HostInput) (hw : s.running = none) (hi : s.inputs = .rst :: l) :
      StepEnds s (s.withInputs l).applyReset
  /-- A reset finds a command running (R213). -/
  | abandons (s : State) (w : Word) (l : List HostInput) (t : State) (hw : s.running = some w)
      (hd : brokenDuty w s = none) (hi : s.inputs = .rst :: l) (hr : abandonCommand w (s.withInputs l) = .next t) : StepEnds s t
  /-- A byte of the blob memory is read from outside; the block may be busy (R58). -/
  | blobReads (s : State) (a : BlobAddr) (l : List HostInput) (v : Byte) (hi : s.inputs = .blobRead a :: l)
      (hr : s.blob.read a.toNat = some v) (hd : s.dutiesKept)
      (hs : ∀ w, s.running = some w → racesRead w a = false) :
      StepEnds s ((s.withInputs l).withHostBlobRdata v)
  /-- A byte of the blob memory is written from outside; the block may be busy (R58). -/
  | blobWrites (s : State) (a : BlobAddr) (v : Byte) (l : List HostInput) (hi : s.inputs = .blobWrite a v :: l)
      (hd : s.dutiesKept) (hs : ∀ w, s.running = some w → racesWrite w a = false) : StepEnds s (hostBlobWrite a v (s.withInputs l))
  | learns (s : State) (f : HostFacts) (l : List HostInput) (hi : s.inputs = .newFacts f :: l) (hd : s.dutiesKept)
      (hb : s.blobValid = true → blobBacked (s.withFacts f) = true) : StepEnds s ((s.withInputs l).withFacts f)
  | peerStarts (s : State) (l : List HostInput) (hi : s.inputs = .peerStarts :: l) (hd : s.dutiesKept)
      (hp : s.peer = false) : StepEnds s ((s.withInputs l).withPeer true)
  | peerEnds (s : State) (l : List HostInput) (hi : s.inputs = .peerEnds :: l) (hd : s.dutiesKept) :
      StepEnds s ((s.withInputs l).withPeer false)
  | wants (s : State) (a : BlobAddr) (v : Byte) (l : List HostInput) (hi : s.inputs = .wantWrite a v :: l)
      (hd : s.dutiesKept) : StepEnds s ((s.withInputs l).withWanted (s.wanted ++ [(a, v)]))
  /-- A wanted write completes; the block may be busy (R58, R63). -/
  | wantedCompletes (s : State) (k : Nat) (a : BlobAddr) (v : Byte) (l : List HostInput)
      (hi : s.inputs = .wantedDone k :: l) (hd : s.dutiesKept) (hk : s.wanted[k]? = some (a, v))
      (hs : ∀ w, s.running = some w → racesWrite w a = false) :
      StepEnds s ((hostBlobWrite a v (s.withInputs l)).withWanted (s.wanted.eraseIdx k))
  | wantedNone (s : State) (k : Nat) (l : List HostInput) (hi : s.inputs = .wantedDone k :: l) (hd : s.dutiesKept)
      (hk : s.wanted[k]? = none) : StepEnds s (s.withInputs l)

/-- An idle block rests on no duty of a running command. -/
theorem dutiesKept_of_idle {s : State} (h : s.running = none) : s.dutiesKept := by
  intro w hw; rw [h] at hw; cases hw

theorem dutiesKept_of_running {s : State} {w : Word} (h : s.running = some w) (hd : brokenDuty w s = none) :
    s.dutiesKept := by
  intro v hv
  obtain rfl := Option.some.inj (h.symm.trans hv)
  exact hd

/-- What a step can do when it answers a next state. -/
theorem step_ends {s t : State} (h : step s = .next t) : StepEnds s t := by
  cases hw : s.running with
  | some w =>
    cases hd : brokenDuty w s with
    | some f => rw [step_of_broken hw hd] at h; cases h
    | none =>
      have hk := dutiesKept_of_running hw hd
      cases hi : s.inputs with
      | nil =>
        have hq : s.quiet = true := by simp [State.quiet, hi]
        exact .commandEnds s w t hw hd hq (by rwa [step_of_quiet hw hd hq] at h)
      | cons x l =>
        cases hx : x.held with
        | true =>
          have hq : s.quiet = true := by simp [State.quiet, hi, hx]
          exact .commandEnds s w t hw hd hq (by rwa [step_of_quiet hw hd hq] at h)
        | false =>
          rw [step_of_interrupted hw hd hi hx] at h
          cases x with
          | regRead a => cases hx
          | regWrite a v => cases hx
          | rst => exact .abandons s w l t hw hd hi h
          | blobRead a =>
            simp only [inputBusy] at h
            split at h
            · cases h
            · next hr =>
              obtain ⟨v, hv, rfl⟩ := hostBlobRead_cases h
              refine .blobReads s a l v hi hv hk fun w' hw' => ?_
              obtain rfl := Option.some.inj (hw.symm.trans hw')
              simpa using hr
          | blobWrite a v =>
            simp only [inputBusy] at h
            split at h
            · cases h
            · next hr =>
              cases h
              refine .blobWrites s a v l hi hk fun w' hw' => ?_
              obtain rfl := Option.some.inj (hw.symm.trans hw')
              simpa using hr
          | newFacts f =>
            obtain ⟨hb, rfl⟩ := learn_cases h
            exact .learns s f l hi hk hb
          | peerStarts =>
            obtain ⟨hp, rfl⟩ := startPeer_cases h
            exact .peerStarts s l hi hk hp
          | peerEnds => cases h; exact .peerEnds s l hi hk
          | wantWrite a v => cases h; exact .wants s a v l hi hk
          | wantedDone k =>
            simp only [inputBusy] at h
            split at h
            · cases h
            · next hr =>
              cases h
              cases hc : s.wanted[k]? with
              | some c =>
                rw [completeWanted_some (s := s.withInputs l) (a := c.1) (v := c.2) hc]
                refine .wantedCompletes s k c.1 c.2 l hi hk hc fun w' hw' => ?_
                obtain rfl := Option.some.inj (hw.symm.trans hw')
                rw [racesWanted_some (s := s.withInputs l) (a := c.1) (v := c.2) hc] at hr
                simpa using hr
              | none => rw [completeWanted_none (s := s.withInputs l) hc]; exact .wantedNone s k l hi hk hc
  | none =>
    have hk := dutiesKept_of_idle hw
    cases hi : s.inputs with
    | nil =>
      simp only [step, hw, stepIdle, hi, Host.Outcome.next.injEq] at h
      exact h ▸ .idles s hw hi
    | cons x l =>
      rw [step_of_idle hw hi] at h
      cases x with
      | regRead a => cases h; exact .reads s a l hw hi
      | regWrite a v =>
        obtain ⟨hl, rfl⟩ := hostRegWrite_cases h
        exact .writes s a v l hw hi hl
      | rst => cases h; exact .resets s l hw hi
      | blobRead a =>
        obtain ⟨v, hv, rfl⟩ := hostBlobRead_cases h
        exact .blobReads s a l v hi hv hk fun w' hw' => by rw [hw] at hw'; cases hw'
      | blobWrite a v => cases h; exact .blobWrites s a v l hi hk fun w' hw' => by rw [hw] at hw'; cases hw'
      | newFacts f =>
        obtain ⟨hb, rfl⟩ := learn_cases h
        exact .learns s f l hi hk hb
      | peerStarts =>
        obtain ⟨hp, rfl⟩ := startPeer_cases h
        exact .peerStarts s l hi hk hp
      | peerEnds => cases h; exact .peerEnds s l hi hk
      | wantWrite a v => cases h; exact .wants s a v l hi hk
      | wantedDone k =>
        cases h
        cases hc : s.wanted[k]? with
        | some c =>
          rw [completeWanted_some (s := s.withInputs l) (a := c.1) (v := c.2) hc]
          exact .wantedCompletes s k c.1 c.2 l hi hk hc fun w' hw' => by rw [hw] at hw'; cases hw'
        | none => rw [completeWanted_none (s := s.withInputs l) hc]; exact .wantedNone s k l hi hk hc

/-- Leaving out what is not held leaves a quiet queue. -/
theorem heldInputs_quiet (s : State) (w : Word) : (s.accepting w).quiet = true := by
  show (match heldInputs s.inputs with | [] => true | x :: _ => x.held) = true
  induction s.inputs with
  | nil => rfl
  | cons x l ih =>
    rcases hx : x.held with _ | _
    · simpa only [heldInputs, hx, Bool.false_eq_true, if_false] using ih
    · simp only [heldInputs, hx, if_true]

end Sys2Proof.Machine
end

