-- ==== Sys2Proof/Tests/Slice0.lean ====
section
/-! SUPPORT. Small tests, each one step on a small state; expected values are those of 95_test_vectors.md or of the worked
example of the rule named. Then a witness for the hypotheses of each obligation. -/

namespace Sys2Proof.Tests

open Sys2Proof Sys2Proof.Machine

/-! ### Helpers -/

/-- The idle block after reset, with inputs. -/
def idleWith (l : List HostInput) : State := { State.reset with inputs := l }

/-- The block after reset with a command word accepted. -/
def busyWith (w : Word) (l : List HostInput) : State := { State.reset with running := some w, inputs := l }

/-- A blob memory that backs the window with one byte everywhere. -/
def windowOf (b : Byte) : Memory := (List.range 48).map fun j => (0x104 + j, b)

/-- An attached block with the window backed and LOGO_LEN 48. -/
def attached : State :=
  { State.reset with blobValid := true, blobLen := 0x14F, logoLen := 48, blob := windowOf 0xA5 }

/-- An idle attached block with one wanted write under way. -/
def wanting (a : BlobAddr) (l : List HostInput) : State := { attached with wanted := [(a, 7)], inputs := l }

/-- A field of the next state; none on a fault or refusal. -/
def after {α : Type} (o : Host.Outcome State Fault Refusal) (f : State → α) : Option α :=
  match o with
  | .next t => some (f t)
  | .fault _ => none
  | .refused _ => none

/-- The known vector KV1. -/
def kv1 : Raw :=
  #v[0xCE, 0xED, 0x66, 0x66, 0xCC, 0x0D, 0x00, 0x0B, 0x03, 0x73, 0x00, 0x83, 0x00, 0x0C, 0x00, 0x0D,
     0x00, 0x08, 0x11, 0x1F, 0x88, 0x89, 0x00, 0x0E, 0xDC, 0xCC, 0x6E, 0xE6, 0xDD, 0xDD, 0xD9, 0x99,
     0xBB, 0xBB, 0x67, 0x63, 0x6E, 0x0E, 0xEC, 0xCC, 0xDD, 0xDC, 0x99, 0x9F, 0xBB, 0xB9, 0x33, 0x3E]

/-- The row word of 95_test_vectors.md: column 0 is the most significant of 48 bits. -/
def rowWord (row : Vector Bool 48) : Nat := row.toList.foldl (fun n p => 2 * n + p.toNat) 0

/-! ### WellFormed: an ill-formed term for each check, which the check refuses -/

theorem test_zero_field_refused : ({ zero := 1, op := 1 } : CommandWord).zeroClear = false := by decide
theorem test_op_zero_refused : ({ zero := 0, op := 0 } : CommandWord).opDefined = false := by decide
theorem test_op_six_refused : ({ zero := 0, op := 6 } : CommandWord).opDefined = false := by decide
theorem test_ill_formed_words_refused :
    ({ zero := 0x800000, op := 4 } : CommandWord).wellFormed = false ∧
      ({ zero := 0, op := 0xFF } : CommandWord).wellFormed = false ∧
      ({ zero := 0, op := 5 } : CommandWord).wellFormed = true := by decide

/-! ### Decode: words written out from R70 and R72 (24 zero bits, then the opcode) -/

theorem test_decode_attach : decode 0b000000000000000000000000_00000001#32 = .command .attach := by decide
theorem test_decode_getRaw : decode 0b000000000000000000000000_00000010#32 = .command .getRaw := by decide
theorem test_decode_setRaw : decode 0b000000000000000000000000_00000011#32 = .command .setRaw := by decide
theorem test_decode_decode : decode 0b000000000000000000000000_00000100#32 = .command .decode := by decide
theorem test_decode_encode : decode 0b000000000000000000000000_00000101#32 = .command .encode := by decide
/-- "Illegal command words" of 95_test_vectors.md. -/
theorem test_decode_illegal :
    decode 0x00000000 = .illegalCommand ∧ decode 0x00000006 = .illegalCommand ∧ decode 0x000000FF = .illegalCommand ∧
      decode 0x00000101 = .illegalCommand ∧ decode 0x80000004 = .illegalCommand := by decide
theorem test_fetch_runs_attach : after (step (State.reset.withFetchWord 32 0x1)) (·.err) = some 1 := by decide

/-! ### Commands -/

/-- S1: 0x014E fails with TooSmall. -/
theorem test_attach_short : after (exec .attach { State.reset with blobLen := 0x14E }) statusWord = some 0x01 := by decide
/-- S1: exactly 0x014F succeeds. -/
theorem test_attach_exact : after (exec .attach { State.reset with blobLen := 0x14F }) statusWord = some 0x10 := by decide
/-- ATTACH table, MIN_BLOB_LEN = 336. -/
theorem test_attach_other_reading :
    statusWord (attachWith 336 { State.reset with blobLen := 0x14F }) = 0x01 ∧
      statusWord (attachWith 336 { State.reset with blobLen := 0x150 }) = 0x10 := by decide
/-- GET_RAW after reset: STATUS 0x04. -/
theorem test_getRaw_detached : after (exec .getRaw State.reset) statusWord = some 0x04 := by decide
/-- GET_RAW attached, window = KV1: RAW = KV1. -/
theorem test_getRaw_loads :
    after (exec .getRaw { attached with blob := storeWindow kv1 [] }) (fun t => (t.raw, statusWord t)) =
      some (kv1, 0x10) := by decide
/-- S2: LOGO_LEN = 47 fails with LogoTooSmall, STATUS 0x12. -/
theorem test_setRaw_short : after (exec .setRaw { attached with logoLen := 47 }) statusWord = some 0x12 := by decide
/-- S2: 1000 succeeds, using the first 48 bytes; the byte at 0x0134 is unchanged. -/
theorem test_setRaw_stores :
    after (exec .setRaw { attached with logoLen := 1000, raw := kv1, blob := (windowOf 0xA5).write 0x134 0x34 })
      (fun t => (t.blob.read 0x104, t.blob.read 0x133, t.blob.read 0x134, statusWord t)) =
      some (some 0xCE, some 0x3E, some 0x34, 0x10) := by decide
/-- KV1: the row words of its grid. -/
theorem test_decode_kv1 :
    after (exec .decode { State.reset with raw := kv1 }) (fun t => t.pix.toList.map rowWord) =
      some [0xC6C000000180, 0xE6C030000180, 0xE60078000180, 0xD6DB33CD8F9E, 0xD6DDB66ED9B3, 0xCED9B7ECD9B3,
        0xCED9B60CD9B3, 0xC6D9B3ECCF9E] := by decide
/-- DECODE table: RAW[23] = 0x10 lights (47, 2) alone. -/
theorem test_decode_one_bit :
    after (exec .decode { State.reset with raw := State.reset.raw.set 23 0x10 }) (·.pix) =
      some (setPixel State.reset.pix 2 47 true) := by decide
/-- ENCODE table: PIX[0][0], PIX[4][5] and PIX[7][47] on. -/
theorem test_encode_three_pixels :
    after (exec .encode { State.reset with imgW := 48, imgH := 8, imgCh := 1, pix := setPixel (setPixel (setPixel State.reset.pix 0 0 true) 4 5 true) 7 47 true })
      (·.raw) = some (((State.reset.raw.set 0 0x80).set 26 0x40).set 47 0x01) := by decide
/-- S5: a 48 by 8 image of 3 channels fails. -/
theorem test_encode_channels :
    after (exec .encode { State.reset with imgW := 48, imgH := 8, imgCh := 3 }) statusWord = some 0x03 := by decide
/-- An illegal word: ERR 5, still attached (as line 13 of P3). -/
theorem test_illegal_word : after (runCommand 0x00000102 attached) statusWord = some 0x15 := by decide

/-! ### Datapath -/

/-- The LUT table of 95_test_vectors.md. -/
theorem test_lut :
    [0, 1, 3, 4, 47, 48, 53, 95].map lutOrigin = [(0, 0), (0, 1), (0, 3), (4, 0), (44, 3), (0, 4), (4, 5), (44, 7)] := by
  decide
/-- The table of rev4 in R117. -/
theorem test_rev4 :
    (List.range 16).map (fun n => (bitReverse (BitVec.ofNat 4 n)).toNat) =
      [0, 8, 4, 0xC, 2, 0xA, 6, 0xE, 1, 9, 5, 0xD, 3, 0xB, 7, 0xF] := by decide
/-- The internal rows of KV1 show its pixels (R117). -/
theorem test_rows_kv1 : gridOfRows (decodeRows kv1) = decodeGrid kv1 := by decide +kernel
/-- R118: `##.#` packs to 0xD. -/
theorem test_pack : packPixels true true false true = 0xD := by decide

/-! ### Register access -/

/-- R160 and R115: offsets and what they name. -/
theorem test_regions :
    region 0x2C0 = .pix 1 0 ∧ region 0x1BF = .raw 47 ∧ region 0x1C0 = .unmapped ∧ region 0x7FC = .pix 7 47 ∧
      region 0x800 = .unmapped ∧ region 0x5D0 = .pix 5 4 ∧ region 0x103 = .raw 0 ∧ region 0x01C = .unmapped := by decide
/-- `WR RAW[0], 0x000001CE`, then `RD RAW[0]` gives 0x000000CE. -/
theorem test_raw_readback : readReg (writeReg (.raw 0) 0x1CE State.reset) (.raw 0) = 0xCE := by decide
/-- `WR PIX[0][0], 0x00000100` stores off; `0x80` stores on. -/
theorem test_pix_readback :
    readReg (writeReg (.pix 0 0) 0x100 State.reset) (.pix 0 0) = 0 ∧
      readReg (writeReg (.pix 0 0) 0x80 State.reset) (.pix 0 0) = 0xFF := by decide
/-- A BLOB_LEN write of the same value detaches (P3, line 16). -/
theorem test_blobLen_detaches :
    after (step { attached with err := 3, inputs := [wr .blobLen 0x14F] }) statusWord = some 0x03 := by decide
/-- A register access is held while the block is busy (R220). -/
theorem test_access_held : after (step (busyWith 4 checkStatus)) (·.inputs) = some checkStatus := by decide
/-- A write to STATUS is ignored. -/
theorem test_status_write_ignored : writeReg .status 0xFFFFFFFF State.reset = State.reset := by decide

/-! ### Host duties (R222, D31: a broken duty is a fault of the run) -/

/-- Does the step stop with this fault? -/
def stopsWith (o : Host.Outcome State Fault Refusal) (f : Fault) : Bool :=
  match o with
  | .next _ => false
  | .fault g => decide (g = f)
  | .refused _ => false

/-- A data change that comes while ATTACH runs does not hide that BLOB_LEN was false at its acceptance. -/
theorem test_change_while_busy_hides_nothing :
    stopsWith (step { attached with running := some 1, facts := { HostFacts.unknown with blobLen := some 400 }, inputs := [.newFacts HostFacts.unknown] })
      .falseDeclaration = true := by decide
/-- Another instance's GET_RAW that ends while this one's runs was still at work on the window with it (duty 5). -/
theorem test_overlap_of_instances :
    stopsWith (step { attached with running := some 2, peer := true, inputs := [.peerEnds] }) .windowShared = true := by decide
/-- One instance after the other is no broken duty. -/
theorem test_instances_in_turn :
    after (step { attached with running := some 2 }) statusWord = some 0x10 ∧
      after (step { attached with peer := true, inputs := [.peerEnds] }) (·.peer) = some false := by decide
/-- A GET_RAW issued before a window write that it is to see is complete (duty 4); one byte past the window is no such write. -/
theorem test_late_window_write :
    stopsWith (step { attached with wanted := [(0x133, 7)], inputs := issue .getRaw }) .lateBlobWrite = true ∧
      after (step { attached with wanted := [(0x134, 7)], inputs := issue .getRaw }) (·.running) = some (some 2) := by decide
/-- A wanted write that completes before the CMD write is seen, and no longer under way (R63). -/
theorem test_wanted_write_in_time :
    after (step { attached with wanted := [(0x104, 7)], inputs := .wantedDone 0 :: issue .getRaw })
      (fun t => (t.blob.read 0x104, t.wanted)) = some (some 7, []) := by decide
/-- A GET_RAW of a window without memory that a reset cuts off (duty 2). -/
theorem test_abandoned_getRaw_unbacked :
    stopsWith (step { attached with blob := [], running := some 2, inputs := [.rst] }) .unbackedWindow = true := by decide
/-- A blob that reaches one byte past its memory (duty 2). -/
theorem test_attach_past_memory :
    stopsWith (step { State.reset with blobLen := 400, running := some 1, facts := { HostFacts.unknown with backedLen := some 399 } })
      .unbackedBlob = true := by decide

/-! ### Witnesses: a concrete state and operands that meet the hypotheses of each obligation, clause by clause -/

theorem witness_DecodeFollowsTheFields :
    ((0x101 : Word).extractLsb' 8 24 ≠ 0) ∧
      (∀ n ∈ [1, 2, 3, 4, 5], (BitVec.ofNat 32 n).extractLsb' 8 24 = 0 ∧ (BitVec.ofNat 32 n).extractLsb' 0 8 = BitVec.ofNat 8 n) ∧
      ((0 : Word).extractLsb' 8 24 = 0 ∧ ((0 : Word).extractLsb' 0 8).toNat = 0) ∧
      ((6 : Word).extractLsb' 8 24 = 0 ∧ 6 ≤ ((6 : Word).extractLsb' 0 8).toNat) ∧
      ((0xFF : Word).extractLsb' 8 24 = 0 ∧ 6 ≤ ((0xFF : Word).extractLsb' 0 8).toNat) := by decide

theorem witness_EncodeAndDecodeAreInverse : decode 0x3 = .command .setRaw := by decide

theorem witness_IllegalWordOnlyReportsCodeFive :
    (busyWith 0x101 []).running = some 0x101 ∧ (busyWith 0x101 []).quiet = true ∧ (0x101 : Word).extractLsb' 8 24 ≠ 0 ∧
      ((0x0 : Word).extractLsb' 0 8).toNat = 0 ∧ 6 ≤ ((0x6 : Word).extractLsb' 0 8).toNat := by decide

theorem witness_StepRunsTheAcceptedCommand :
    ((busyWith 2 []).running = some 2 ∧ (busyWith 2 []).quiet = true ∧ decode 2 = .command .getRaw ∧
      brokenDuty 2 (busyWith 2 []) = none) ∧
    ((5 : Nat) < 2 ^ 32 ∧ decode (BitVec.ofNat 32 5) = .command .encode ∧ brokenDuty (BitVec.ofNat 32 5) State.reset = none) := by decide

theorem witness_CmdWriteIsAccepted :
    (idleWith [.regWrite 0x003 7]).running = none ∧ (idleWith [.regWrite 0x003 7]).inputs = .regWrite 0x003 7 :: [] ∧
      (0x003 : RegAddr).toNat < 4 ∧ lateWrite 7 (idleWith [.regWrite 0x003 7]) = false ∧
      ∃ t, step (idleWith [.regWrite 0x003 7]) = .next t := ⟨rfl, rfl, by decide, by decide, _, rfl⟩

theorem witness_AccessesAreHeldAndKeptInOrder :
    ((busyWith 4 [rd .status]).busy = true ∧ (busyWith 4 [rd .status]).inputs = rd .status :: [] ∧
      (rd .status).held = true ∧ ∃ t, step (busyWith 4 [rd .status]) = .next t) ∧
    (∃ t, step (idleWith [rd .status]) = .next t ∧ (idleWith [rd .status]).inputs = rd .status :: t.inputs ∧
      (rd .status).held = true) :=
  ⟨⟨rfl, rfl, rfl, _, rfl⟩, _, rfl, rfl, rfl⟩

theorem witness_CheckReturnsTheCommandsResult :
    (busyWith 1 checkStatus).busy = true ∧ (busyWith 1 checkStatus).inputs = checkStatus ++ [] ∧
      ∃ t, step (busyWith 1 checkStatus) = .next t := ⟨rfl, rfl, _, rfl⟩

theorem witness_PseudoInstructionsExpand :
    ((idleWith setDim).running = none ∧ (idleWith setDim).inputs = setDim ++ []) ∧
      ((idleWith (issue .getRaw)).running = none ∧ (idleWith (issue .getRaw)).inputs = issue .getRaw ++ []) ∧
      (∀ c ∈ (wanting 0x103 (issue .getRaw)).wanted, c.1.toNat < 0x0104 ∨ 0x0134 ≤ c.1.toNat) :=
  ⟨by decide, by decide, by simp [wanting]⟩

/-- The duties are kept by a block whose window is backed, whose run tells nothing of the host's data, and which runs alone. -/
theorem keeps_duties (s : State) (hb : windowBacked s.blob = true) (hf : s.facts = HostFacts.unknown) (hp : s.peer = false) :
    s.windowHeld ∧ s.dutiesKept := by
  refine ⟨fun _ => hb, fun w _ => ?_⟩
  cases h : decode w with
  | illegalCommand => exact brokenDuty_illegal s h
  | command i => exact (brokenDuty_eq_none h).2 ⟨(unknown_keeps hf i).1, (unknown_keeps hf i).2, by cases i <;> simp [sharesWindow, hp]⟩

theorem witness_EveryCommandCompletes :
    ({ attached with running := some 3 } : State).busy = true ∧
      ({ attached with running := some 3 } : State).quiet = true ∧
      ({ attached with running := some 3 } : State).windowHeld ∧ ({ attached with running := some 3 } : State).dutiesKept :=
  ⟨rfl, rfl, keeps_duties _ (by decide) rfl rfl⟩

theorem witness_RegistersAreFrozenWhileBusy :
    (busyWith 2 [.blobWrite 0x134 1]).busy = true ∧
      (busyWith 2 [.blobWrite 0x134 1]).inputs = .blobWrite 0x134 1 :: [] ∧ (HostInput.blobWrite 0x134 1).held = false ∧
      HostInput.blobWrite 0x134 1 ≠ .rst ∧ (∃ t, step (busyWith 2 [.blobWrite 0x134 1]) = .next t) ∧
      decode 2 = .command .getRaw ∧ decode 3 = .command .setRaw :=
  ⟨rfl, rfl, rfl, by decide, ⟨_, rfl⟩, by decide, by decide⟩

theorem witness_LutIsABijection :
    ((0 : Nat) < 96 ∧ (95 : Nat) < 96) ∧ ((44 : Nat) % 4 = 0 ∧ (44 : Nat) ≤ 44 ∧ (7 : Nat) < 8) := by decide

theorem witness_InternalRowsShowTheDecodedPixels : (7 : Fin 8).val = (lutOrigin (95 : Fin 96)).2 := by decide

theorem witness_BytesLandOnTheirPixels :
    ((47 : Fin 48).val = 4 * ((47 : Fin 48).val / 2 % 12) + (3 : Fin 4).val ∧
      (6 : Fin 8).val = 4 * ((47 : Fin 48).val / 24) + 2 * ((47 : Fin 48).val % 2)) ∧
    (7 : Fin 8).val = 4 * ((47 : Fin 48).val / 24) + 2 * ((47 : Fin 48).val % 2) + 1 := by decide

/-- The worked example of R123: pixel (5, 3). -/
theorem witness_PixelsComeFromTheirBits :
    (3 : Fin 48).val = 24 * ((3 : Fin 8).val / 4) + 2 * ((5 : Fin 48).val / 4) + (3 : Fin 8).val % 4 / 2 := by decide

theorem witness_AttachChecksTheLength :
    ({ State.reset with blobLen := 0x14E } : State).blobLen.toNat < 335 ∧
      335 ≤ ({ State.reset with blobLen := 0x14F } : State).blobLen.toNat := by decide

theorem witness_AttachDependsOnTheLengthAlone : attached.blobLen = ({ State.reset with blobLen := 0x14F } : State).blobLen := by
  decide

/-- The window of `attached` is backed (for GET_RAW and SET_RAW). -/
theorem attached_window_backed (j : Fin 48) : ∃ v, attached.blob.read (0x0104 + j.val) = some v :=
  ⟨0xA5, by revert j; decide⟩

theorem witness_GetRawLoadsTheWindow :
    State.reset.blobValid = false ∧ attached.blobValid = true ∧
      ∀ j : Fin 48, ∃ v, attached.blob.read (0x0104 + j.val) = some v :=
  ⟨rfl, rfl, attached_window_backed⟩

theorem witness_SetRawStoresTheWindow :
    State.reset.blobValid = false ∧
      (({ attached with logoLen := 47 } : State).blobValid = true ∧
        ({ attached with logoLen := 47 } : State).logoLen.toNat < 48) ∧
      (attached.blobValid = true ∧ 48 ≤ attached.logoLen.toNat ∧
        ∀ j : Fin 48, ∃ v, attached.blob.read (0x0104 + j.val) = some v) ∧
      ((0x103 : Nat) < 0x0104 ∧ 0x0134 ≤ (0x134 : Nat)) :=
  ⟨rfl, by decide, ⟨rfl, by decide, attached_window_backed⟩, by decide⟩

/-- An attached block whose window has no memory; with a word and inputs. -/
def unbacked (w : Word) (l : List HostInput) : State := { attached with blob := [], running := some w, inputs := l }

/-- The host's memory is known to end one byte short of BLOB_LEN. -/
def shortMemory : HostFacts := { HostFacts.unknown with backedLen := some 0x14E }

theorem witness_UnbackedWindowStopsTheRun :
    ((unbacked 2 [.rst]).blobValid = true ∧ (unbacked 2 [.rst]).blob.read (0x0104 + (0 : Fin 48).val) = none ∧
      48 ≤ (unbacked 2 [.rst]).logoLen.toNat ∧ (unbacked 2 [.rst]).running = some 2 ∧
      brokenDuty 2 (unbacked 2 [.rst]) = none ∧ brokenDuty 3 (unbacked 3 [.rst]) = none ∧
      (unbacked 2 [.rst]).inputs = .rst :: [] ∧ decode 2 = .command .getRaw ∧ decode 3 = .command .setRaw) ∧
    (({ attached with facts := shortMemory, running := some 1 } : State).facts.backedLen = some 0x14E ∧
      (0x14E : Nat) < attached.blobLen.toNat ∧ decode 1 = .command .attach ∧ 335 ≤ attached.blobLen.toNat ∧
      attached.blobValid = true ∧ shortMemory.blobLen = none ∧ shortMemory.logoLen = none) ∧
    (({ attached with inputs := [.newFacts shortMemory] } : State).inputs = .newFacts shortMemory :: [] ∧
      shortMemory.backedLen = some 0x14E ∧ ({ attached with inputs := [.newFacts shortMemory] } : State).running = none) := by
  decide

theorem witness_WindowIsolation : (∃ t, runCommand 3 attached = .next t) ∧ (0x103 : Nat) < 0x0104 ∧ 0x0134 ≤ (0x134 : Nat) :=
  ⟨⟨_, rfl⟩, by decide⟩

theorem witness_SetRawThenGetRawKeepsRaw :
    attached.blobValid = true ∧ 48 ≤ attached.logoLen.toNat ∧ ∃ t, exec .setRaw attached = .next t ∧ t.blobValid = true :=
  ⟨rfl, by decide, _, rfl, rfl⟩

theorem witness_RawAndWindowAgreeAfterSuccess :
    (∃ t, exec .getRaw attached = .next t ∧ t.err = 0) ∧ (∃ t, exec .setRaw attached = .next t ∧ t.err = 0) :=
  ⟨⟨_, rfl, rfl⟩, _, rfl, rfl⟩

theorem witness_GetRawReadsOnlyTheWindow :
    (∀ a, 0x0104 ≤ a → a < 0x0134 → (attached.blob.write 0x200 1).read a = attached.blob.read a) ∧
      ∃ t, exec .getRaw attached = .next t :=
  ⟨fun a _ h => Memory.read_write_other _ _ (by omega), _, rfl⟩

theorem witness_PortAccessesAreTheWindowAscending :
    portAccesses .getRaw attached ≠ [] ∧ (State.reset.blobValid = false ∧ State.reset.logoLen.toNat < 48) ∧
      attached.blobValid = true ∧ 48 ≤ attached.logoLen.toNat ∧ ∃ t, exec .setRaw attached = .next t :=
  ⟨by decide, by decide, rfl, by decide, _, rfl⟩

theorem witness_DecodeWritesEveryPixel :
    (95 : Nat) = 48 * ((7 : Fin 8).val / 4) + 4 * ((47 : Fin 48).val / 4) + (7 : Fin 8).val % 4 ∧
      (47 : Fin 48).val = 95 / 2 ∧
      (94 : Nat) = 48 * ((6 : Fin 8).val / 4) + 4 * ((47 : Fin 48).val / 4) + (6 : Fin 8).val % 4 := by decide

/-- The reset state with the shape declared. -/
def shaped : State := { State.reset with imgW := 48, imgH := 8, imgCh := 1 }

theorem witness_EncodePacksEveryByte :
    (State.reset.imgW ≠ 48) ∧ (shaped.imgW = 48 ∧ shaped.imgH = 8 ∧ shaped.imgCh = 1) ∧
      ((47 : Fin 48).val = 4 * ((2 * (47 : Fin 48).val / 4) % 12) + (3 : Fin 4).val ∧
        (6 : Fin 8).val = 4 * (2 * (47 : Fin 48).val / 48) + 2 * (47 : Fin 48).val % 4) ∧
      ((47 : Fin 48).val = 4 * (((2 * (47 : Fin 48).val + 1) / 4) % 12) + (3 : Fin 4).val ∧
        (7 : Fin 8).val = 4 * ((2 * (47 : Fin 48).val + 1) / 48) + (2 * (47 : Fin 48).val + 1) % 4) := by decide

theorem witness_BlankAndFullBuffersConvert :
    (∀ j : Fin 48, State.reset.raw[j] = 0x00) ∧
      (∀ j : Fin 48, ({ State.reset with raw := Vector.replicate 48 0xFF } : State).raw[j] = 0xFF) ∧
      (shaped.imgW = 48 ∧ shaped.imgH = 8 ∧ shaped.imgCh = 1 ∧ ∀ (y : Fin 8) (x : Fin 48), shaped.pix[y][x] = false) ∧
      (∀ (y : Fin 8) (x : Fin 48),
        ({ shaped with pix := Vector.replicate 8 (Vector.replicate 48 true) } : State).pix[y][x] = true) := by
  refine ⟨by decide, by decide, ⟨by decide, by decide, by decide, fun y x => ?_⟩, fun y x => ?_⟩ <;>
    simp [shaped, State.reset]

theorem witness_DecodingTwiceGivesTheSameGrid : ∃ t, exec .decode shaped = .next t ∧ t.raw = shaped.raw := ⟨_, rfl, rfl⟩

theorem witness_CommandRoundTrips :
    (∃ t, exec .decode shaped = .next t ∧ t.imgW = 48 ∧ t.imgH = 8 ∧ t.imgCh = 1) ∧
      (∃ t, exec .encode shaped = .next t ∧ t.err = 0) :=
  ⟨⟨_, rfl, rfl, rfl, rfl⟩, _, rfl, rfl⟩

theorem witness_CodecCommandsKeepTheRegisters :
    (∃ t, exec .decode shaped = .next t) ∧ (∃ t, exec .encode shaped = .next t) := ⟨⟨_, rfl⟩, _, rfl⟩

theorem witness_EveryCommandsFrame :
    (∀ i : Instr, ∃ t, exec i attached = .next t) ∧ (∃ t, exec .setRaw State.reset = .next t ∧ t.err ≠ 0) ∧
      (∀ j : Fin 48, 0x134 ≠ windowAddr j) ∧ (∀ j : Fin 48, 0x103 ≠ windowAddr j) :=
  ⟨fun i => by cases i <;> exact ⟨_, rfl⟩, ⟨_, rfl, by decide⟩, by decide, by decide⟩

theorem witness_ErrorsArePrecise :
    (∃ t, runCommand 1 State.reset = .next t ∧ t.err ≠ 0 ∧ decode 1 = .command .attach) ∧
      (∃ t, runCommand 0 State.reset = .next t ∧ t.err ≠ 0 ∧ decode 0 ≠ .command .attach) :=
  ⟨⟨_, rfl, by decide, by decide⟩, _, rfl, by decide, by decide⟩

theorem witness_TheFirstErrorIsReported :
    (decode 0 = .illegalCommand ∧ decode 1 = .command .attach ∧ decode 2 = .command .getRaw ∧
      decode 3 = .command .setRaw ∧ decode 4 = .command .decode ∧ decode 5 = .command .encode) ∧
      ∀ w ∈ [0, 1, 2, 3, 4, 5], ∃ t, runCommand (BitVec.ofNat 32 w) State.reset = .next t :=
  ⟨by decide, fun w h => by
    simp only [List.mem_cons, List.not_mem_nil, or_false] at h
    rcases h with rfl | rfl | rfl | rfl | rfl | rfl <;> exact ⟨_, rfl⟩⟩

/-- Each clause at both ends of its range. -/
theorem witness_AddressesDecodeByTheMap :
    ((0x003 : RegAddr).toNat / 4 = 0 ∧ (0x004 : RegAddr).toNat / 4 = 1 ∧ (0x00B : RegAddr).toNat / 4 = 2 ∧
      (0x00C : RegAddr).toNat / 4 = 3 ∧ (0x010 : RegAddr).toNat / 4 = 4 ∧ (0x014 : RegAddr).toNat / 4 = 5 ∧
      (0x01B : RegAddr).toNat / 4 = 6) ∧
    ((0x100 : RegAddr).toNat / 4 = 64 + (0 : Fin 48).val ∧ (0x1BF : RegAddr).toNat / 4 = 64 + (47 : Fin 48).val) ∧
    ((0x200 : RegAddr).toNat / 4 = 128 + 48 * (0 : Fin 8).val + (0 : Fin 48).val ∧
      (0x7FF : RegAddr).toNat / 4 = 128 + 48 * (7 : Fin 8).val + (47 : Fin 48).val) ∧
    (0x01C ≤ (0x01C : RegAddr).toNat ∧ (0x0FF : RegAddr).toNat < 0x100 ∧ 0x1C0 ≤ (0x1C0 : RegAddr).toNat ∧
      (0x1FF : RegAddr).toNat < 0x200 ∧ 0x800 ≤ (0x800 : RegAddr).toNat ∧ 0x800 ≤ (0xFFF : RegAddr).toNat) := by decide

theorem witness_ReadsReturnTheRegister :
    (idleWith [.regRead 0x004]).running = none ∧ (idleWith [.regRead 0x004]).inputs = .regRead 0x004 :: [] ∧
      [0x000, 0x004, 0x008, 0x00C, 0x010, 0x014, 0x018, 0x1BC, 0x7FC, 0x800].map region =
        [.cmd, .status, .blobLen, .logoLen, .imgW, .imgH, .imgCh, .raw 47, .pix 7 47, .unmapped] := by decide

theorem witness_WritesStoreTheRegister :
    (idleWith [.regWrite 0x1BC 0x1FF]).running = none ∧
      (idleWith [.regWrite 0x1BC 0x1FF]).inputs = .regWrite 0x1BC 0x1FF :: [] ∧
      lateWrite 2 (idleWith [.regWrite 0x000 2]) = false ∧
      [0x000, 0x004, 0x008, 0x00C, 0x010, 0x014, 0x018, 0x1BC, 0x7FC, 0x800].map region =
        [.cmd, .status, .blobLen, .logoLen, .imgW, .imgH, .imgCh, .raw 47, .pix 7 47, .unmapped] := by decide

theorem witness_ReadsSeeTheLastWrite :
    (Region.blobLen = .blobLen) ∧ (Region.raw 47 = .raw (47 : Fin 48)) ∧
      (Region.raw 46 ≠ .raw 47 ∧ Region.raw 46 ≠ .status) := by decide

theorem witness_BlobValidIsWrittenByNamedEventsOnly :
    (∃ t, step { attached with running := some 1 } = .next t ∧ t.blobValid = true) ∧
      (∃ t, step (busyWith 1 []) = .next t ∧ t.blobValid = false ∧ (busyWith 1 []).quiet = true) ∧
      (∃ t, step { attached with inputs := [.regWrite 0x008 5] } = .next t ∧ region 0x008 = .blobLen) ∧
      (∃ t, step { attached with inputs := [.rst] } = .next t) :=
  ⟨⟨_, rfl, rfl⟩, ⟨_, rfl, rfl, rfl⟩, ⟨_, rfl, by decide⟩, _, rfl⟩

theorem witness_ErrIsWrittenByCompletionOnly :
    (∃ t, step (busyWith 0 []) = .next t ∧ t.err ≠ (busyWith 0 []).err) ∧
      (∃ t, step { idleWith [.rst] with err := 3 } = .next t ∧ t.err ≠ 3) :=
  ⟨⟨_, rfl, by decide⟩, _, rfl, by decide⟩

theorem witness_RawAndPixChangeByNamedEventsOnly :
    (∃ t, step { attached with running := some 2 } = .next t ∧ t.raw ≠ attached.raw ∧
      ∀ l, ({ attached with running := some 2 } : State).inputs ≠ .rst :: l) ∧
      (∃ t, step { attached with running := some 4, raw := kv1 } = .next t ∧ t.pix ≠ attached.pix) :=
  ⟨⟨_, rfl, by decide, fun l h => by cases h⟩, _, rfl, by decide⟩

theorem witness_LengthsAndShapeChangeByHostWritesOnly :
    (∃ t, step (idleWith [.regWrite 0x008 9]) = .next t ∧ t.blobLen ≠ (0 : Word)) ∧
      (∃ t, step (idleWith [.regWrite 0x00C 9]) = .next t ∧ t.logoLen ≠ (0 : Word)) ∧
      (∃ t, step (idleWith [.regWrite 0x010 9]) = .next t ∧ t.imgW ≠ (0 : Word)) ∧
      (∃ t, step (idleWith [.regWrite 0x014 9]) = .next t ∧ t.imgH ≠ (0 : Word)) ∧
      (∃ t, step (idleWith [.regWrite 0x018 9]) = .next t ∧ t.imgCh ≠ (0 : Word)) ∧
      (∀ l, (idleWith [.regWrite 0x018 9]).inputs ≠ .rst :: l) :=
  ⟨⟨_, rfl, by decide⟩, ⟨_, rfl, by decide⟩, ⟨_, rfl, by decide⟩, ⟨_, rfl, by decide⟩, ⟨_, rfl, by decide⟩, fun l h => by cases h⟩

theorem witness_BlobBytesChangeByNamedEventsOnly :
    (∃ t, step (idleWith [.blobWrite 0x300 7]) = .next t ∧ t.blob.read 0x300 ≠ none) ∧
      (∃ t, step (wanting 0x300 [.wantedDone 0]) = .next t ∧ t.blob.read 0x300 ≠ none) ∧
      (∃ t, step { attached with running := some 3 } = .next t ∧ t.blob.read 0x104 ≠ attached.blob.read 0x104) :=
  ⟨⟨_, rfl, by decide⟩, ⟨_, rfl, by decide⟩, _, rfl, by decide⟩

theorem witness_ResetClearsTheControlState :
    ((idleWith [.rst]).inputs = .rst :: [] ∧ (idleWith [.rst]).running = none) ∧
      (∃ t, step (busyWith 4 [.rst]) = .next t ∧ (busyWith 4 [.rst]).inputs = .rst :: []) := ⟨⟨rfl, rfl⟩, _, rfl, rfl⟩

theorem witness_ResetDrawsRawAndPix : (idleWith [.rst]).inputs = .rst :: [] ∧ ∃ t, step (idleWith [.rst]) = .next t :=
  ⟨rfl, _, rfl⟩

/-- An attached block that runs SET_RAW when `rst` comes. -/
def cutOff : State := { attached with running := some 3, inputs := [.rst] }

theorem witness_ResetAbandonsTheCommand :
    (cutOff.inputs = .rst :: [] ∧ (∃ t, step cutOff = .next t) ∧ cutOff.windowHeld ∧ cutOff.dutiesKept) ∧
      ((∀ w, (busyWith 2 [.rst]).running = some w → decode w ≠ .command .setRaw) ∧
        (idleWith [.rst]).blobValid = false ∧ (idleWith [.rst]).logoLen.toNat < 48) :=
  ⟨⟨rfl, ⟨_, rfl⟩, keeps_duties _ (by decide) rfl rfl⟩,
    fun w h => by obtain rfl := Option.some.inj h; decide, by decide, by decide⟩

/-- Both ends of the window; and another instance at work on it. -/
theorem witness_WindowRacesStopTheRun :
    (0x0104 ≤ (0x0104 : BlobAddr).toNat ∧ (0x0133 : BlobAddr).toNat < 0x0134) ∧
      (decode 2 = .command .getRaw ∧ decode 3 = .command .setRaw) ∧
      ((busyWith 3 [.blobWrite 0x104 1]).running = some 3 ∧
        (busyWith 3 [.blobWrite 0x104 1]).inputs = .blobWrite 0x104 1 :: [] ∧
        (busyWith 3 [.blobRead 0x104]).inputs = .blobRead 0x104 :: [] ∧ brokenDuty 3 (busyWith 3 []) = none) ∧
      ((wanting 0x133 [.wantedDone 0]).inputs = .wantedDone 0 :: [] ∧
        (wanting 0x133 [.wantedDone 0]).wanted[0]? = some (0x133, 7) ∧
        brokenDuty 2 { wanting 0x133 [.wantedDone 0] with running := some 2 } = none) ∧
      ((wanting 0x133 (issue .getRaw)).running = none ∧ (wanting 0x133 (issue .getRaw)).inputs = .regWrite 0 2 :: [] ∧
        region 0 = .cmd ∧ (wanting 0x133 (issue .getRaw)).blobValid = true ∧
        (∃ c ∈ (wanting 0x133 (issue .getRaw)).wanted, 0x0104 ≤ c.1.toNat ∧ c.1.toNat < 0x0134)) ∧
      (({ attached with running := some 2, peer := true } : State).running = some 2 ∧ attached.blobValid = true ∧
        attached.facts = HostFacts.unknown) ∧
      ((idleWith [.peerStarts]).inputs = .peerStarts :: [] ∧ (idleWith [.peerStarts]).peer = false ∧
        ({ idleWith [.peerStarts] with peer := true } : State).running = none) := by decide

/-- A write and a read at the ends of the window, idle and under DECODE, and next to it under SET_RAW. -/
theorem witness_HostBlobAccessesTakeEffect :
    (attached.running = none ∧ brokenDuty 4 (busyWith 4 []) = none ∧ brokenDuty 3 (busyWith 3 []) = none) ∧
      ((busyWith 4 [.blobWrite 0x133 1]).inputs = .blobWrite 0x133 1 :: [] ∧ decode 4 ≠ .command .getRaw ∧
        decode 4 ≠ .command .setRaw) ∧
      ((busyWith 3 [.blobRead 0x134]).inputs = .blobRead 0x134 :: [] ∧ ¬ (0x134 : BlobAddr).toNat < 0x0134) ∧
      (attached.blob.read (0x104 : BlobAddr).toNat = some 0xA5 ∧ attached.blob.read (0x134 : BlobAddr).toNat = none) ∧
      ((idleWith [.wantWrite 0x104 1]).inputs = .wantWrite 0x104 1 :: [] ∧ (idleWith [.wantWrite 0x104 1]).running = none ∧
        (wanting 0x104 [.wantedDone 0]).inputs = .wantedDone 0 :: [] ∧ (wanting 0x104 [.wantedDone 0]).running = none ∧
        (wanting 0x104 [.wantedDone 0]).wanted[0]? = some (0x104, 7)) := by
  decide

/-- A block that attaches to a blob declared 335 long whose true length is 400. -/
def falselyDeclared : State :=
  { attached with running := some 1, facts := { blobLen := some 400, logoLen := some 10, imgW := some 96, imgH := some 16, imgCh := some 3, backedLen := none } }

theorem witness_FalseDeclarationsStopTheRun :
    falselyDeclared.running = some 1 ∧ falselyDeclared.quiet = true ∧
      (decode 1 = .command .attach ∧ decode 2 = .command .getRaw ∧ decode 3 = .command .setRaw ∧
        decode 5 = .command .encode ∧ falselyDeclared.blobValid = true) ∧
      (falselyDeclared.facts.blobLen = some 400 ∧ falselyDeclared.blobLen.toNat ≠ min 400 0xFFFFFFFF) ∧
      (falselyDeclared.facts.logoLen = some 10 ∧ falselyDeclared.logoLen.toNat ≠ min 10 0xFFFFFFFF) ∧
      (falselyDeclared.facts.imgW = some 96 ∧ falselyDeclared.imgW.toNat ≠ min 96 0xFFFFFFFF) ∧
      (falselyDeclared.facts.imgH = some 16 ∧ falselyDeclared.imgH.toNat ≠ min 16 0xFFFFFFFF) ∧
      (falselyDeclared.facts.imgCh = some 3 ∧ falselyDeclared.imgCh.toNat ≠ min 3 0xFFFFFFFF) := by decide

/-- The attached block meets the invariant. -/
theorem attached_inv : attached.Inv := ⟨by decide, by decide, by decide, by decide⟩

theorem witness_EveryStepKeepsTheInvariant :
    ({ attached with running := some 3 } : State).Inv ∧ ∃ t, step { attached with running := some 3 } = .next t :=
  ⟨⟨by decide, by decide, by decide, by decide⟩, _, rfl⟩

theorem witness_AttachedWindowLiesInsideTheBlob :
    attached.Inv ∧ attached.blobValid = true ∧ 0x0104 ≤ (0x0104 : Nat) ∧ (0x0133 : Nat) < 0x0134 :=
  ⟨attached_inv, rfl, by decide⟩

theorem witness_ReservedCodesAreNeverReported : attached.Inv ∧ ∃ t, step attached = .next t := ⟨attached_inv, _, rfl⟩

end Sys2Proof.Tests
end

section
/-! PROOFS. What a register write does to each register, and where the CMD word lies (R160, R162). -/

namespace Sys2Proof.Machine

@[simp] theorem acceptRead_eq (a : RegAddr) (s : State) : acceptRead a s = s.withRegRdata (readReg s (region a)) := rfl
@[simp] theorem acceptWrite_eq (a : RegAddr) (w : Word) (s : State) : acceptWrite a w s = writeReg (region a) w s := rfl
@[simp] theorem hostBlobWrite_eq (a : BlobAddr) (v : Byte) (s : State) :
    hostBlobWrite a v s = s.withBlob (s.blob.write a.toNat v) := rfl

@[simp] theorem writeReg_err (r : Region) (w : Word) (s : State) : (writeReg r w s).err = s.err := by
  cases r <;> rfl
@[simp] theorem writeReg_blobValid (r : Region) (w : Word) (s : State) :
    (writeReg r w s).blobValid = if r = .blobLen then false else s.blobValid := by
  cases r <;> simp [writeReg]
@[simp] theorem writeReg_blobLen (r : Region) (w : Word) (s : State) :
    (writeReg r w s).blobLen = if r = .blobLen then w else s.blobLen := by
  cases r <;> simp [writeReg]
@[simp] theorem writeReg_logoLen (r : Region) (w : Word) (s : State) :
    (writeReg r w s).logoLen = if r = .logoLen then w else s.logoLen := by
  cases r <;> simp [writeReg]
@[simp] theorem writeReg_imgW (r : Region) (w : Word) (s : State) :
    (writeReg r w s).imgW = if r = .imgW then w else s.imgW := by
  cases r <;> simp [writeReg]
@[simp] theorem writeReg_imgH (r : Region) (w : Word) (s : State) :
    (writeReg r w s).imgH = if r = .imgH then w else s.imgH := by
  cases r <;> simp [writeReg]
@[simp] theorem writeReg_imgCh (r : Region) (w : Word) (s : State) :
    (writeReg r w s).imgCh = if r = .imgCh then w else s.imgCh := by
  cases r <;> simp [writeReg]
@[simp] theorem writeReg_blob (r : Region) (w : Word) (s : State) : (writeReg r w s).blob = s.blob := by
  cases r <;> rfl

/-- Only a write to one of its entries changes RAW (R33). -/
theorem writeReg_raw_changes {r : Region} {w : Word} {s : State} (h : (writeReg r w s).raw ≠ s.raw) :
    ∃ j, r = .raw j := by
  cases r with
  | raw j => exact ⟨j, rfl⟩
  | _ => exact absurd rfl h

/-- Only a write to one of its entries changes PIX (R34). -/
theorem writeReg_pix_changes {r : Region} {w : Word} {s : State} (h : (writeReg r w s).pix ≠ s.pix) :
    ∃ y x, r = .pix y x := by
  cases r with
  | pix y x => exact ⟨y, x, rfl⟩
  | _ => exact absurd rfl h

/-- Address decode drops the two low bits (R56). -/
theorem wordOffset_eq (a : RegAddr) : wordOffset a = 4 * (a.toNat / 4) := by
  have e : a &&& 0xFFC#12 = (a >>> 2) <<< 2 := by
    ext i hi
    interval_cases i <;> simp
  rw [wordOffset, e]
  simp only [BitVec.toNat_shiftLeft, BitVec.toNat_ushiftRight, Nat.shiftLeft_eq, Nat.shiftRight_eq_div_pow]
  omega

theorem region_cmd_of_lt {a : RegAddr} (h : a.toNat < 4) : region a = .cmd := by
  have h0 : wordOffset a = 0 := by rw [wordOffset_eq]; omega
  simp [region, h0]

end Sys2Proof.Machine
end

section
/-! PROOFS. What a command changes and what it leaves as it is (R37, R96, R183): the frame of `exec`, lifted to the command
word. -/

namespace Sys2Proof.Machine

theorem setRawStores_iff (s : State) : setRawStores s = true ↔ s.blobValid = true ∧ 48 ≤ s.logoLen.toNat := by
  simp only [setRawStores, Bool.and_eq_true, Bool.not_eq_true', ← Bool.not_eq_true, logoTooSmall_iff, Nat.not_lt]

/-- A command writes ERR, BLOB_VALID, RAW, PIX and the blob memory at most, and ends `busy`. -/
theorem exec_frame {i : Instr} {s t : State} (h : exec i s = .next t) :
    t = { s with err := t.err, blobValid := t.blobValid, raw := t.raw, pix := t.pix, blob := t.blob, running := none } := by
  cases exec_ends h <;>
    simp only [State.complete, State.raise, State.withBlob, State.withRaw, State.withPix, State.withBlobValid]

/-- The two ends of ATTACH, by what they leave in STATUS (R90). -/
theorem exec_attach_status {s t : State} (h : exec .attach s = .next t) :
    (335 ≤ s.blobLen.toNat ∧ t.blobValid = true ∧ t.err = 0) ∨
      (s.blobLen.toNat < 335 ∧ t.blobValid = false ∧ t.err = 1) := by
  cases exec_ends h with
  | attachFails _ hl => exact .inr ⟨hl, rfl, rfl⟩
  | attaches _ hl => exact .inl ⟨hl, rfl, rfl⟩

theorem exec_blobValid_of_ne {i : Instr} {s t : State} (h : exec i s = .next t) (hi : i ≠ .attach) :
    t.blobValid = s.blobValid := by
  cases exec_ends h <;> simp at hi ⊢

theorem exec_raw_changes {i : Instr} {s t : State} (h : exec i s = .next t) (hr : t.raw ≠ s.raw) :
    t.err = 0 ∧ (i = .getRaw ∨ i = .encode) := by
  cases exec_ends h <;> simp at hr ⊢

theorem exec_pix_changes {i : Instr} {s t : State} (h : exec i s = .next t) (hp : t.pix ≠ s.pix) : i = .decode := by
  cases exec_ends h <;> simp at hp ⊢

/-- The blob memory stays as it is, but under a SET_RAW that succeeds (R96). -/
theorem exec_blob_cases {i : Instr} {s t : State} (h : exec i s = .next t) :
    t.blob = s.blob ∨
      (i = .setRaw ∧ setRawStores s = true ∧ t.err = 0 ∧ t.blob = storeWindow s.raw s.blob) := by
  cases exec_ends h with
  | setsRaw _ hv hl hb => exact .inr ⟨rfl, (setRawStores_iff s).2 ⟨hv, hl⟩, by simp, by simp⟩
  | _ => left; simp

theorem runCommand_of_command {w : Word} {i : Instr} (h : decode w = .command i) (s : State) :
    runCommand w s = exec i s := by
  simp only [runCommand, h]

theorem runCommand_frame {w : Word} {s t : State} (h : runCommand w s = .next t) :
    t = { s with err := t.err, blobValid := t.blobValid, raw := t.raw, pix := t.pix, blob := t.blob, running := none } := by
  rcases runCommand_cases h with ⟨-, rfl⟩ | ⟨i, -, he⟩
  · rfl
  · exact exec_frame he

theorem runCommand_blobValid_of_ne {w : Word} {s t : State} (h : runCommand w s = .next t)
    (hw : decode w ≠ .command .attach) : t.blobValid = s.blobValid := by
  rcases runCommand_cases h with ⟨-, rfl⟩ | ⟨i, hi, he⟩
  · rfl
  · exact exec_blobValid_of_ne he fun hc => hw (hc ▸ hi)

theorem runCommand_raw_changes {w : Word} {s t : State} (h : runCommand w s = .next t) (hr : t.raw ≠ s.raw) :
    t.err = 0 ∧ (decode w = .command .getRaw ∨ decode w = .command .encode) := by
  rcases runCommand_cases h with ⟨-, rfl⟩ | ⟨i, hi, he⟩
  · exact absurd rfl hr
  · simpa [hi] using exec_raw_changes he hr

theorem runCommand_pix_changes {w : Word} {s t : State} (h : runCommand w s = .next t) (hp : t.pix ≠ s.pix) :
    decode w = .command .decode := by
  rcases runCommand_cases h with ⟨-, rfl⟩ | ⟨i, hi, he⟩
  · exact absurd rfl hp
  · exact exec_pix_changes he hp ▸ hi

theorem runCommand_blob_cases {w : Word} {s t : State} (h : runCommand w s = .next t) :
    t.blob = s.blob ∨
      (decode w = .command .setRaw ∧ setRawStores s = true ∧ t.blob = storeWindow s.raw s.blob) := by
  rcases runCommand_cases h with ⟨-, rfl⟩ | ⟨i, hi, he⟩
  · exact .inl rfl
  · rcases exec_blob_cases he with hb | ⟨rfl, hs, -, hb⟩
    · exact .inl hb
    · exact .inr ⟨hi, hs, hb⟩

/-- Settles O38: `exec_frame` for the registers, and `exec_blob_cases` with the laws of the window for the memory. -/
theorem everyCommandsFrame : Obligations.EveryCommandsFrame := by
  intro i s t h
  have hf := exec_frame h
  refine ⟨?_, exec_blobValid_of_ne h, ?_, ?_, ?_, ?_⟩
  · rw [hf]; simp
  · intro hg he
    by_contra hr
    exact (exec_raw_changes h hr).2.elim hg he
  · intro hd
    by_contra hp
    exact hd (exec_pix_changes h hp)
  · rintro hn a
    rcases exec_blob_cases h with hb | ⟨hi, -, he, -⟩
    · rw [hb]
    · exact absurd hn (by simp [hi, he])
  · intro a ha
    rcases exec_blob_cases h with hb | ⟨-, -, -, hb⟩
    · rw [hb]
    · rw [hb, read_storeWindow_outside]
      rw [← Bool.not_eq_true, inWindow_iff_windowAddr]
      exact fun ⟨j, hj⟩ => ha j hj

end Sys2Proof.Machine
end

section
/-! PROOFS. What a step does, seen from the registers and seen from the blob memory. -/

namespace Sys2Proof.Machine

theorem inWindow_windowAddr (j : Fin 48) : inWindow (windowAddr j) = true := (inWindow_iff_windowAddr _).2 ⟨j, rfl⟩

/-- A write from outside races exactly under GET_RAW and SET_RAW, in the window (R58, R222 duty 3). -/
theorem racesWrite_eq_false_iff (w : Word) (a : BlobAddr) :
    racesWrite w a = false ↔
      (0x0104 ≤ a.toNat → a.toNat < 0x0134 → decode w ≠ .command .getRaw ∧ decode w ≠ .command .setRaw) := by
  rw [← Bool.not_eq_true, racesWrite, Bool.and_eq_true, inWindow_iff, Bool.or_eq_true, decide_eq_true_eq,
    decide_eq_true_eq]
  tauto

/-- A read from outside races exactly under SET_RAW, in the window (R58, R222 duty 3). -/
theorem racesRead_eq_false_iff (w : Word) (a : BlobAddr) :
    racesRead w a = false ↔ (0x0104 ≤ a.toNat → a.toNat < 0x0134 → decode w ≠ .command .setRaw) := by
  rw [← Bool.not_eq_true, racesRead, Bool.and_eq_true, inWindow_iff, decide_eq_true_eq]
  tauto

/-- The block's registers, the word it runs and its draws are the same; the oldest input is gone, and the host's side may
have moved. -/
def RegistersKept (s t : State) : Prop :=
  t = { s with blob := t.blob, hostBlobRdata := t.hostBlobRdata, facts := t.facts, peer := t.peer, wanted := t.wanted,
               inputs := s.inputs.tail }

/-- A step seen from the registers (R26, R27, R220): a command completes, a register access is taken, a reset comes, or the
registers stay as they are. -/
inductive RegisterEvent (s t : State) : Prop where
  | command (w : Word) (hw : s.running = some w) (hq : s.quiet = true) (hr : runCommand w s = .next t)
  | read (a : RegAddr) (l : List HostInput) (hw : s.running = none) (hi : s.inputs = .regRead a :: l)
      (ht : t = (s.withInputs l).withRegRdata (readReg (s.withInputs l) (region a)))
  | write (a : RegAddr) (v : Word) (l : List HostInput) (hw : s.running = none) (hi : s.inputs = .regWrite a v :: l)
      (ht : t = writeReg (region a) v (s.withInputs l))
  | reset (l : List HostInput) (hi : s.inputs = .rst :: l)
  | hostSide (h : RegistersKept s t)

theorem registerEvent_of_step {s t : State} (h : step s = .next t) : RegisterEvent s t := by
  cases step_ends h with
  | commandEnds w _ hw hd hq hr => exact .command w hw hq hr
  | reads a l hw hi => exact .read a l hw hi rfl
  | writes a v l hw hi hl => exact .write a v l hw hi rfl
  | resets l hw hi => exact .reset l hi
  | abandons w l _ hw hd hi hr => exact .reset l hi
  | idles hw hi =>
    have hs : s = s.withInputs s.inputs.tail := by rw [hi, List.tail_nil, ← hi]; rfl
    exact .hostSide hs
  | blobReads a l v hi hr hd hs => exact .hostSide (by rw [RegistersKept, hi]; rfl)
  | blobWrites a v l hi hd hs => exact .hostSide (by rw [RegistersKept, hi]; rfl)
  | learns f l hi hd hb => exact .hostSide (by rw [RegistersKept, hi]; rfl)
  | peerStarts l hi hd hp => exact .hostSide (by rw [RegistersKept, hi]; rfl)
  | peerEnds l hi hd => exact .hostSide (by rw [RegistersKept, hi]; rfl)
  | wants a v l hi hd => exact .hostSide (by rw [RegistersKept, hi]; rfl)
  | wantedCompletes k a v l hi hd hk hs => exact .hostSide (by rw [RegistersKept, hi]; rfl)
  | wantedNone k l hi hd hk => exact .hostSide (by rw [RegistersKept, hi]; rfl)

/-- The oldest input is a byte write from outside that completes, wanted earlier or not (R40; log 16). -/
def CompletesWrite (s : State) (b : BlobAddr) (v : Byte) : Prop :=
  ∃ l, s.inputs = .blobWrite b v :: l ∨ ∃ k, s.inputs = .wantedDone k :: l ∧ s.wanted[k]? = some (b, v)

/-- A step seen from the blob memory (R40, R96, R213): it stays, or takes a byte from outside that does not race, or a
SET_RAW past its checks stores a window, when it completes or when a reset cuts it off. -/
inductive BlobEvent (s t : State) : Prop where
  | same (hb : t.blob = s.blob)
  | byteWritten (b : BlobAddr) (v : Byte) (hc : CompletesWrite s b v)
      (hs : ∀ w, s.running = some w → racesWrite w b = false) (hb : t.blob = s.blob.write b.toNat v)
  | windowStored (w : Word) (r : Raw) (hw : s.running = some w) (hd : decode w = .command .setRaw)
      (hs : setRawStores s = true) (hi : s.quiet = true ∨ ∃ l, s.inputs = .rst :: l)
      (hb : t.blob = storeWindow r s.blob)

theorem blobEvent_of_step {s t : State} (h : step s = .next t) : BlobEvent s t := by
  cases step_ends h with
  | commandEnds w _ hw hd hq hr =>
    rcases runCommand_blob_cases hr with hb | ⟨hi, hs, hb⟩
    · exact .same hb
    · exact .windowStored w _ hw hi hs (.inl hq) hb
  | abandons w l _ hw hd hi hr =>
    rcases abandonCommand_cases hr with rfl | ⟨hdec, hs, old, -, rfl⟩
    · exact .same (by simp)
    · exact .windowStored w (abandonedWindow s.draws old s.raw) hw hdec hs (.inr ⟨l, hi⟩) (by simp)
  | blobWrites a v l hi hd hs => exact .byteWritten a v ⟨l, .inl hi⟩ hs (by simp)
  | wantedCompletes k a v l hi hd hk hs => exact .byteWritten a v ⟨l, .inr ⟨k, hi, hk⟩⟩ hs (by simp)
  | _ => exact .same (by simp)

/-- A step that answers a next state broke no duty (R222). -/
theorem dutiesKept_of_step {s t : State} (h : step s = .next t) : s.dutiesKept := by
  intro w hw
  cases hd : brokenDuty w s with
  | none => rfl
  | some f => rw [step_of_broken hw hd] at h; cases h

/-- A step of a busy block that nothing interrupts runs the command word. -/
theorem runCommand_of_step {s t : State} {w : Word} (h : step s = .next t) (hw : s.running = some w)
    (hq : s.quiet = true) : runCommand w s = .next t := by
  rwa [step_of_quiet hw (dutiesKept_of_step h w hw) hq] at h

/-- A register write that the idle block takes. -/
theorem eq_writeReg_of_step {s t : State} {a : RegAddr} {w : Word} {l : List HostInput} (h : step s = .next t)
    (hw : s.running = none) (hi : s.inputs = .regWrite a w :: l) : t = writeReg (region a) w (s.withInputs l) := by
  rw [step_of_idle hw hi] at h
  exact (hostRegWrite_cases h).2

/-- STATUS after a reset that the step takes, idle or busy (R210). -/
theorem status_of_rst {s t : State} {l : List HostInput} (h : step s = .next t) (hi : s.inputs = .rst :: l) :
    t.err = 0 ∧ t.blobValid = false := by
  cases hw : s.running with
  | none =>
    rw [step_of_idle hw hi] at h
    cases h
    exact ⟨rfl, rfl⟩
  | some w =>
    rw [step_of_interrupted hw (dutiesKept_of_step h w hw) hi rfl] at h
    exact (abandonCommand_idle h).2.2

/-- Whether the block is quiet is whether its oldest input is held. -/
theorem quiet_eq_held {s : State} {x : HostInput} {l : List HostInput} (hi : s.inputs = x :: l) : s.quiet = x.held := by
  simp only [State.quiet, hi]

/-- An input that is not held, and is not hindered, is taken alike by the idle and by the busy block (R58, R213). -/
theorem step_of_unheld {s : State} {x : HostInput} {l : List HostInput} {o : Host.Outcome State Fault Refusal}
    (hd : s.dutiesKept) (hi : s.inputs = x :: l) (hx : x.held = false)
    (hidle : inputIdle x (s.withInputs l) = o) (hbusy : ∀ w, s.running = some w → inputBusy w x (s.withInputs l) = o) :
    step s = o := by
  cases hw : s.running with
  | none => rw [step_of_idle hw hi, hidle]
  | some w => rw [step_of_interrupted hw (hd w hw) hi hx, hbusy w hw]

end Sys2Proof.Machine
end

section
/-! PROOFS. The invariant (R27, R50, R53, R180, R222): each operation keeps it, and so does every step. -/

namespace Sys2Proof.Machine

section Operations
variable {s : State} (h : s.Inv)
include h

theorem State.Inv.withInputs (l : List HostInput) : (s.withInputs l).Inv :=
  ⟨h.errProduced, h.attachedLongEnough, h.attachedBacked, h.blobCanonical⟩

theorem State.Inv.withRegRdata (v : Word) : (s.withRegRdata v).Inv :=
  ⟨h.errProduced, h.attachedLongEnough, h.attachedBacked, h.blobCanonical⟩

theorem State.Inv.withHostBlobRdata (v : Byte) : (s.withHostBlobRdata v).Inv :=
  ⟨h.errProduced, h.attachedLongEnough, h.attachedBacked, h.blobCanonical⟩

theorem State.Inv.withPeer (p : Bool) : (s.withPeer p).Inv :=
  ⟨h.errProduced, h.attachedLongEnough, h.attachedBacked, h.blobCanonical⟩

theorem State.Inv.withWanted (l : List (BlobAddr × Byte)) : (s.withWanted l).Inv :=
  ⟨h.errProduced, h.attachedLongEnough, h.attachedBacked, h.blobCanonical⟩

theorem State.Inv.withRaw (r : Raw) : (s.withRaw r).Inv :=
  ⟨h.errProduced, h.attachedLongEnough, h.attachedBacked, h.blobCanonical⟩

theorem State.Inv.withPix (g : Grid) : (s.withPix g).Inv :=
  ⟨h.errProduced, h.attachedLongEnough, h.attachedBacked, h.blobCanonical⟩

theorem State.Inv.withBlob {m : Memory} (hm : m.wf) : (s.withBlob m).Inv :=
  ⟨h.errProduced, h.attachedLongEnough, h.attachedBacked, hm⟩

theorem State.Inv.withFacts {f : HostFacts} (hf : s.blobValid = true → blobBacked (s.withFacts f) = true) :
    (s.withFacts f).Inv :=
  ⟨h.errProduced, h.attachedLongEnough, hf, h.blobCanonical⟩

theorem State.Inv.detach : (s.withBlobValid false).Inv :=
  ⟨h.errProduced, nofun, nofun, h.blobCanonical⟩

/-- ATTACH that succeeds checks the length; that the blob is backed is a duty of the host (R90, R222). -/
theorem State.Inv.attach (hl : minBlobLen ≤ s.blobLen.toNat) (hb : blobBacked s = true) : (s.withBlobValid true).Inv :=
  ⟨h.errProduced, fun _ => hl, fun _ => hb, h.blobCanonical⟩

theorem State.Inv.complete : s.complete.Inv :=
  ⟨by simp, h.attachedLongEnough, h.attachedBacked, h.blobCanonical⟩

theorem State.Inv.raise {k : ErrorKind} (hk : k.code.toNat ≤ 5) : (s.raise k).Inv :=
  ⟨hk, h.attachedLongEnough, h.attachedBacked, h.blobCanonical⟩

/-- A reset detaches, so that only the blob memory matters (R210, R213). -/
theorem State.Inv.applyReset : s.applyReset.Inv :=
  ⟨by simp, nofun, nofun, h.blobCanonical⟩

theorem State.Inv.hostBlobWrite (a : BlobAddr) (v : Byte) : (hostBlobWrite a v s).Inv :=
  h.withBlob (Memory.wf_write h.blobCanonical a.isLt v)

/-- A BLOB_LEN write detaches, and no other register matters (R27). -/
theorem State.Inv.writeReg (r : Region) (w : Word) : (writeReg r w s).Inv := by
  cases r with
  | blobLen => exact ⟨h.errProduced, nofun, nofun, h.blobCanonical⟩
  | _ => exact ⟨h.errProduced, h.attachedLongEnough, h.attachedBacked, h.blobCanonical⟩

end Operations

/-- An ATTACH that would succeed and breaks no duty finds the blob backed (R222 duty 2). -/
theorem blobBacked_of_attach {w : Word} {s : State} (hw : decode w = .command .attach) (hd : brokenDuty w s = none)
    (hl : minBlobLen ≤ s.blobLen.toNat) : blobBacked s = true := by
  obtain ⟨-, hm, -⟩ := (brokenDuty_eq_none hw).1 hd
  simpa [lacksMemory, blobTooSmall, hl] using hm

theorem runCommand_keeps_inv {w : Word} {s t : State} (h : s.Inv) (hd : brokenDuty w s = none)
    (hr : runCommand w s = .next t) : t.Inv := by
  rcases runCommand_cases hr with ⟨-, rfl⟩ | ⟨i, hi, he⟩
  · exact h.raise (by decide)
  · cases exec_ends he with
    | attachFails _ hl => exact h.detach.raise (by decide)
    | attaches _ hl => exact (h.attach hl (blobBacked_of_attach hi hd hl)).complete
    | getRawDetached => exact h.raise (by decide)
    | getsRaw _ r => exact (h.withRaw r).complete
    | setRawDetached => exact h.raise (by decide)
    | setRawShort => exact h.raise (by decide)
    | setsRaw => exact (h.withBlob (wf_storeWindow _ h.blobCanonical)).complete
    | decodes => exact (h.withPix _).complete
    | encodeFails => exact h.raise (by decide)
    | encodes => exact (h.withRaw _).complete

theorem abandonCommand_keeps_inv {w : Word} {s t : State} (h : s.Inv) (hr : abandonCommand w s = .next t) : t.Inv := by
  rcases abandonCommand_cases hr with rfl | ⟨-, -, old, -, rfl⟩
  · exact h.applyReset
  · exact (h.withBlob (wf_storeWindow _ h.blobCanonical)).applyReset

/-- Settles O56: each kind of event keeps the invariant. -/
theorem everyStepKeepsTheInvariant : Obligations.EveryStepKeepsTheInvariant := by
  intro s t h hstep
  cases step_ends hstep with
  | commandEnds w _ hw hd hq hr => exact runCommand_keeps_inv h hd hr
  | idles => exact h
  | reads a l => exact (h.withInputs l).withRegRdata _
  | writes a v l => exact (h.withInputs l).writeReg _ v
  | resets l => exact (h.withInputs l).applyReset
  | abandons w l _ hw hd hi hr => exact abandonCommand_keeps_inv (h.withInputs l) hr
  | blobReads a l v => exact (h.withInputs l).withHostBlobRdata v
  | blobWrites a v l => exact (h.withInputs l).hostBlobWrite a v
  | learns f l hi hd hb => exact (h.withInputs l).withFacts hb
  | peerStarts l => exact (h.withInputs l).withPeer true
  | peerEnds l => exact (h.withInputs l).withPeer false
  | wants a v l => exact (h.withInputs l).withWanted _
  | wantedCompletes k a v l => exact ((h.withInputs l).hostBlobWrite a v).withWanted _
  | wantedNone k l => exact h.withInputs l

/-- Settles O59: by O56 ERR is at most 5, and STATUS is ERR with BLOB_VALID at bit 4. -/
theorem reservedCodesAreNeverReported : Obligations.ReservedCodesAreNeverReported := by
  intro s t h hstep
  have he : t.err.toNat ≤ 5 := (everyStepKeepsTheInvariant s t h hstep).errProduced
  have hv := t.blobValid.toNat_le
  rw [statusWord_eq, BitVec.toNat_ofNat]
  omega

end Sys2Proof.Machine
end

section
/-! PROOFS. Which events write each register and each byte of the blob memory (10_state.md). -/

namespace Sys2Proof.Machine

/-- Settles O47, by the kind of event: a register write and the host's side leave ERR. -/
theorem errIsWrittenByCompletionOnly : Obligations.ErrIsWrittenByCompletionOnly := by
  intro s t h hne
  cases registerEvent_of_step h with
  | command w hw hq hr =>
    exact .inl ⟨by simp [State.busy, hw], by simp [State.busy, (runCommand_idle hr).1], hq⟩
  | read a l hw hi ht => exact absurd (by simp [ht]) hne
  | write a v l hw hi ht => exact absurd (by simp [ht]) hne
  | reset l hi => exact .inr ⟨l, hi, (status_of_rst h hi).1⟩
  | hostSide hk => exact absurd (congrArg State.err hk) hne

/-- Settles O48: of the events that are no reset, only a command and a register write reach RAW or PIX. -/
theorem rawAndPixChangeByNamedEventsOnly : Obligations.RawAndPixChangeByNamedEventsOnly := by
  intro s t h hrst
  cases registerEvent_of_step h with
  | command w hw hq hr =>
    exact ⟨fun hne => .inl ⟨w, hw, runCommand_raw_changes hr hne⟩,
      fun hne => .inl ⟨w, hw, runCommand_pix_changes hr hne⟩⟩
  | read a l hw hi ht => simp [ht]
  | write a v l hw hi ht =>
    subst ht
    refine ⟨fun hne => .inr ?_, fun hne => .inr ?_⟩
    · obtain ⟨j, hj⟩ := writeReg_raw_changes hne
      exact ⟨a, v, l, j, hw, hi, hj⟩
    · obtain ⟨y, x, hx⟩ := writeReg_pix_changes hne
      exact ⟨a, v, l, y, x, hw, hi, hx⟩
  | reset l hi => exact absurd hi (hrst l)
  | hostSide hk => rw [hk]; simp

/-- Settles O49: a command's frame holds all five registers, so that only a register write is left. -/
theorem lengthsAndShapeChangeByHostWritesOnly : Obligations.LengthsAndShapeChangeByHostWritesOnly := by
  intro s t h hrst
  cases registerEvent_of_step h with
  | command w hw hq hr => rw [runCommand_frame hr]; simp
  | read a l hw hi ht => simp [ht]
  | write a v l hw hi ht =>
    subst ht
    simp only [writeReg_blobLen, writeReg_logoLen, writeReg_imgW, writeReg_imgH, writeReg_imgCh, State.withInputs_blobLen,
      State.withInputs_logoLen, State.withInputs_imgW, State.withInputs_imgH, State.withInputs_imgCh, ite_ne_right_iff]
    refine ⟨?_, ?_, ?_, ?_, ?_⟩ <;> exact fun ⟨hr, _⟩ => ⟨a, v, l, hi, hr, if_pos hr⟩
  | reset l hi => exact absurd hi (hrst l)
  | hostSide hk => rw [hk]; simp

/-- STATUS after an ATTACH that the step completes (R90). -/
theorem attach_status_of_step {s t : State} {w : Word} (h : step s = .next t) (hw : s.running = some w)
    (hq : s.quiet = true) (ha : decode w = .command .attach) :
    (335 ≤ s.blobLen.toNat ∧ t.blobValid = true ∧ t.err = 0) ∨
      (s.blobLen.toNat < 335 ∧ t.blobValid = false ∧ t.err = 1) := by
  have hr := runCommand_of_step h hw hq
  rw [runCommand_of_command ha] at hr
  exact exec_attach_status hr

/-- The events of R27: what a step that leaves BLOB_VALID otherwise than it was has done. -/
theorem blobValid_changes {s t : State} (h : step s = .next t) (hne : t.blobValid ≠ s.blobValid) :
    (∃ w, s.running = some w ∧ s.quiet = true ∧ decode w = .command .attach) ∨
      (∃ a w l, s.running = none ∧ s.inputs = .regWrite a w :: l ∧ region a = .blobLen ∧ t.blobValid = false) ∨
      (∃ l, s.inputs = .rst :: l) := by
  cases registerEvent_of_step h with
  | command w hw hq hr =>
    by_contra hn
    exact hne (runCommand_blobValid_of_ne hr fun ha => hn (.inl ⟨w, hw, hq, ha⟩))
  | read a l hw hi ht => exact absurd (by simp [ht]) hne
  | write a v l hw hi ht =>
    subst ht
    have hr : region a = .blobLen := by
      by_contra hr
      simp [hr] at hne
    exact .inr (.inl ⟨a, v, l, hw, hi, hr, by simp [hr]⟩)
  | reset l hi => exact .inr (.inr ⟨l, hi⟩)
  | hostSide hk => exact absurd (congrArg State.blobValid hk) hne

/-- Settles O46: `blobValid_changes` for the events there are, and what each of them leaves in BLOB_VALID. -/
theorem blobValidIsWrittenByNamedEventsOnly : Obligations.BlobValidIsWrittenByNamedEventsOnly := by
  intro s t h
  have hattach := fun w => attach_status_of_step (w := w) h
  have hwrite : ∀ a w l, s.running = none → s.inputs = .regWrite a w :: l → region a = .blobLen →
      t.blobValid = false := by
    intro a w l hw hi hr
    rw [eq_writeReg_of_step h hw hi]
    simp [hr]
  have hrst : ∀ l, s.inputs = .rst :: l → t.blobValid = false := fun l hi => (status_of_rst h hi).2
  refine ⟨fun hv => ?_, fun hv => ?_, ?_, hwrite, hrst⟩
  · by_cases hs : s.blobValid = true
    · exact .inl hs
    right
    rcases blobValid_changes h (by simp [hv, hs]) with ⟨w, hw, hq, ha⟩ | ⟨a, w, l, -, -, -, hf⟩ | ⟨l, hi⟩
    · rcases hattach w hw hq ha with ⟨-, -, he⟩ | ⟨-, hf, -⟩
      · exact ⟨w, hw, hq, ha, he⟩
      · simp [hf] at hv
    · simp [hf] at hv
    · simp [hrst l hi] at hv
  · by_cases hs : s.blobValid = false
    · exact .inl hs
    right
    rcases blobValid_changes h (by simpa [hv] using hs) with ⟨w, hw, hq, ha⟩ | ⟨a, w, l, hw, hi, hr, -⟩ | hi
    · rcases hattach w hw hq ha with ⟨-, ht, -⟩ | ⟨-, -, he⟩
      · simp [ht] at hv
      · exact .inl ⟨w, hw, hq, ha, he⟩
    · exact .inr (.inl ⟨a, w, l, hw, hi, hr⟩)
    · exact .inr (.inr hi)
  · intro w hw hq ha
    rcases hattach w hw hq ha with ⟨hl, hv, -⟩ | ⟨hl, hv, -⟩ <;> simp [hv, hl]

/-- Settles O50: the events of `blobEvent_of_step`, each with the bytes it changes. -/
theorem blobBytesChangeByNamedEventsOnly : Obligations.BlobBytesChangeByNamedEventsOnly := by
  intro s t a h hne
  cases blobEvent_of_step h with
  | same hb => exact absurd (by rw [hb]) hne
  | byteWritten b v hc hs hb =>
    have hab : a = b.toNat := by
      by_contra hab
      exact hne (by rw [hb, Memory.read_write_other _ _ hab])
    subst hab
    have hv : t.blob.read b.toNat = some v := by rw [hb, Memory.read_write_same]
    obtain ⟨l, hi | ⟨k, hi, hk⟩⟩ := hc
    · exact .inl ⟨b, v, l, hi, rfl, hv⟩
    · exact .inr (.inl ⟨k, b, v, l, hi, hk, rfl, hv⟩)
  | windowStored w r hw hd hs hi hb =>
    have ha : inWindow a = true := by
      by_contra ha
      exact hne (by rw [hb, read_storeWindow_outside _ _ (by simpa using ha)])
    obtain ⟨h1, h2⟩ := (inWindow_iff a).1 ha
    obtain ⟨hv, hl⟩ := (setRawStores_iff s).1 hs
    exact .inr (.inr ⟨h1, h2, hv, hl, w, hw, hd⟩)

/-- While a GET_RAW or SET_RAW runs, a step that neither completes nor resets leaves every window byte (R43, R58). -/
theorem window_frozen {s t : State} {x : HostInput} {l : List HostInput} {w : Word} (h : step s = .next t)
    (hw : s.running = some w) (hd : decode w = .command .getRaw ∨ decode w = .command .setRaw)
    (hi : s.inputs = x :: l) (hx : x.held = false) (hrst : x ≠ .rst) (j : Fin 48) :
    t.blob.read (windowAddr j) = s.blob.read (windowAddr j) := by
  cases blobEvent_of_step h with
  | same hb => rw [hb]
  | byteWritten b v hc hs hb =>
    rw [hb, Memory.read_write_other]
    intro hj
    have hin := (inWindow_iff b.toNat).1 (hj ▸ inWindow_windowAddr j)
    obtain ⟨hg, hst⟩ := (racesWrite_eq_false_iff w b).1 (hs w hw) hin.1 hin.2
    exact hd.elim hg hst
  | windowStored w' r hw' hd' hs hq hb =>
    rcases hq with hq | ⟨l', hi'⟩
    · simp [quiet_eq_held hi, hx] at hq
    · exact absurd (List.cons.inj (hi.symm.trans hi')).1 hrst

/-- Settles O12: what is not held and no reset is an event of the host's side, and the window is frozen under it. -/
theorem registersAreFrozenWhileBusy : Obligations.RegistersAreFrozenWhileBusy := by
  intro s t x l hbusy hi hx hrst h
  obtain ⟨w, hw⟩ := Option.isSome_iff_exists.1 hbusy
  refine ⟨?_, fun w hw hd j => window_frozen h hw hd hi hx hrst j⟩
  cases registerEvent_of_step h with
  | command _ _ hq => simp [quiet_eq_held hi, hx] at hq
  | read _ _ hn => simp [hw] at hn
  | write _ _ _ hn => simp [hw] at hn
  | reset l' hi' => exact absurd (List.cons.inj (hi.symm.trans hi')).1 hrst
  | hostSide hk => rw [hk]; simp [hi]

end Sys2Proof.Machine
end

section
/-! PROOFS. The blob port: what GET_RAW reads, what SET_RAW writes, and in which order (R41, R58, R92, R94). -/

namespace Sys2Proof.Machine

/-- The window's contents are a function of the window's bytes. -/
theorem windowContents_congr {m n : Memory} (h : ∀ j : Fin 48, m.read (windowAddr j) = n.read (windowAddr j)) :
    windowContents m = windowContents n := by
  ext r
  simp only [windowContents_eq_some, h]

/-- Settles O29: GET_RAW loads the window's bytes, SET_RAW stores RAW's. -/
theorem rawAndWindowAgreeAfterSuccess : Obligations.RawAndWindowAgreeAfterSuccess := by
  refine ⟨fun i s t hi h he j => ?_, fun s j w => writeReg_blob _ w s⟩
  rw [← windowAddr_eq]
  cases exec_ends h with
  | getsRaw _ r hv hr => simpa using (windowContents_eq_some s.blob r).1 hr j
  | setsRaw _ hv hl hb => simpa using read_storeWindow_inside s.raw s.blob j
  | _ => simp [ErrorKind.code] at hi he

/-- Settles O30: GET_RAW reads the memory through `windowContents` alone. -/
theorem getRawReadsOnlyTheWindow : Obligations.GetRawReadsOnlyTheWindow := by
  intro s t m hm h
  have hc : windowContents m = windowContents s.blob := windowContents_congr fun j => by
    obtain ⟨h1, h2⟩ := (inWindow_iff _).1 (inWindow_windowAddr j)
    exact hm _ h1 h2
  change execGetRaw (s.withBlob m) = .next (t.withBlob m)
  cases exec_ends h with
  | getRawDetached _ hv => simp only [execGetRaw, State.withBlob_blobValid, hv, Bool.false_eq_true, if_false]; rfl
  | getsRaw _ r hv hr =>
    simp only [execGetRaw, State.withBlob_blobValid, State.withBlob_blob, hv, hc, hr, if_true]
    rfl

/-- Doing port writes one after the other is storing their bytes (R58). -/
theorem foldl_writes_eq_storeBytes {g : Memory → PortAccess → Memory}
    (hg : ∀ m a v, g m (.write a v) = m.write a v) (l : List (Nat × Byte)) (m : Memory) :
    (l.map fun c => PortAccess.write c.1 c.2).foldl g m = storeBytes m l := by
  induction l generalizing m with
  | nil => rfl
  | cons c l ih => rw [List.map_cons, List.foldl_cons, hg, ih, storeBytes]

theorem portAccesses_setRaw_of_stores {s : State} (h : setRawStores s = true) :
    portAccesses .setRaw s = (windowWrites s.raw).map fun c => .write c.1 c.2 := by
  simp only [portAccesses, h, if_true]

theorem portAccesses_setRaw_of_not_stores {s : State} (h : setRawStores s = false) : portAccesses .setRaw s = [] := by
  simp only [portAccesses, h, Bool.false_eq_true, if_false]

theorem exec_setRaw_blob {s t : State} (h : exec .setRaw s = .next t) :
    t.blob = if setRawStores s then storeWindow s.raw s.blob else s.blob := by
  cases exec_ends h with
  | setRawDetached _ hv => simp [setRawStores_iff, hv]
  | setRawShort _ hv hl => simp [setRawStores_iff, hl]
  | setsRaw _ hv hl hb => simp [setRawStores_iff, hv, hl]

/-- Settles O31: the accesses by the cases of `portAccesses`, and the memory by `foldl_writes_eq_storeBytes`. -/
theorem portAccessesAreTheWindowAscending : Obligations.PortAccessesAreTheWindowAscending := by
  refine ⟨fun i s hne => ?_, fun s => ⟨fun hv => ?_, fun hn => ?_⟩, fun s j hv => ⟨?_, ?_, fun hl => ?_⟩,
    fun s t h => ?_⟩
  · cases i <;> simp [portAccesses] at hne ⊢
  · simp [portAccesses, hv]
  · apply portAccesses_setRaw_of_not_stores
    rw [← Bool.not_eq_true, setRawStores_iff]
    rintro ⟨hv, hl⟩
    rcases hn with hn | hn
    · simp [hv] at hn
    · omega
  · simp [portAccesses, hv, windowReads]
  · simp [portAccesses, hv, windowReads, windowAddr_eq]
  · rw [portAccesses_setRaw_of_stores ((setRawStores_iff s).2 ⟨hv, hl⟩)]
    simp [windowWrites, windowAddr_eq]
  · rw [exec_setRaw_blob h]
    cases hs : setRawStores s with
    | true => rw [portAccesses_setRaw_of_stores hs, foldl_writes_eq_storeBytes fun _ _ _ => rfl, if_pos rfl, storeWindow]
    | false => rw [portAccesses_setRaw_of_not_stores hs, List.foldl_nil, if_neg Bool.false_ne_true]

end Sys2Proof.Machine
end

section
/-! PROOFS. What a step takes: the accepted command, a CMD write, and the host's accesses to the blob memory. -/

namespace Sys2Proof.Machine

theorem tableWord_of_lt {n : Nat} (h : n < 2 ^ 32) : tableWord 32 n = BitVec.ofNat 32 n := by
  rw [tableWord, Nat.mod_eq_of_lt h]

/-- Settles O6: a quiet busy block runs its word, and a word placed by `withFetchWord` finds it quiet. -/
theorem stepRunsTheAcceptedCommand : Obligations.StepRunsTheAcceptedCommand := by
  refine ⟨fun s w i hw hq hi hd => ?_, fun s n i hn hi hd => ?_⟩
  · rw [step_of_quiet hw hd hq, runCommand_of_command hi]
  · rw [State.withFetchWord, tableWord_of_lt hn, step_of_quiet (State.accepting_running _ s) hd (heldInputs_quiet s _),
      runCommand_of_command hi, State.accepting]

/-- Settles O7: the offsets 0 to 3 name CMD, and the block writes the word to it. -/
theorem cmdWriteIsAccepted : Obligations.CmdWriteIsAccepted := by
  intro s a w l hw hi ha
  have hr : region a = .cmd := region_cmd_of_lt ha
  refine ⟨fun hl => ?_, fun t h => ?_⟩
  · rw [step_of_idle hw hi, inputIdle, hostRegWrite_of_kept (s := s.withInputs l) fun _ => hl, acceptWrite_eq, hr]
    rfl
  · rw [eq_writeReg_of_step h hw hi, hr]
    rfl

/-- A byte write from outside that does not race is done (R40, R58). -/
theorem step_of_blobWrite {s : State} {a : BlobAddr} {v : Byte} {l : List HostInput} (hd : s.dutiesKept)
    (hi : s.inputs = .blobWrite a v :: l) (hs : ∀ w, s.running = some w → racesWrite w a = false) :
    step s = .next ((s.withInputs l).withBlob (s.blob.write a.toNat v)) :=
  step_of_unheld hd hi rfl rfl fun w hw => by simp [inputBusy, hs w hw]

/-- A byte read from outside that does not race is the host's own read (R58, R98). -/
theorem step_of_blobRead {s : State} {a : BlobAddr} {l : List HostInput} (hd : s.dutiesKept)
    (hi : s.inputs = .blobRead a :: l) (hs : ∀ w, s.running = some w → racesRead w a = false) :
    step s = hostBlobRead a (s.withInputs l) :=
  step_of_unheld hd hi rfl rfl fun w hw => by simp [inputBusy, hs w hw]

theorem step_of_wantWrite {s : State} {a : BlobAddr} {v : Byte} {l : List HostInput} (hd : s.dutiesKept)
    (hi : s.inputs = .wantWrite a v :: l) : step s = .next ((s.withInputs l).withWanted (s.wanted ++ [(a, v)])) :=
  step_of_unheld hd hi rfl rfl fun _ _ => rfl

/-- A wanted write that completes without a race is a write of its byte, and no longer under way (log 16). -/
theorem step_of_wantedDone {s : State} {k : Nat} {a : BlobAddr} {v : Byte} {l : List HostInput} (hd : s.dutiesKept)
    (hi : s.inputs = .wantedDone k :: l) (hk : s.wanted[k]? = some (a, v))
    (hs : ∀ w, s.running = some w → racesWrite w a = false) :
    step s = .next (((s.withInputs l).withBlob (s.blob.write a.toNat v)).withWanted (s.wanted.eraseIdx k)) := by
  have hc := completeWanted_some (s := s.withInputs l) hk
  refine step_of_unheld hd hi rfl (congrArg _ hc) fun w hw => ?_
  rw [inputBusy, racesWanted_some (s := s.withInputs l) hk, hs w hw, hc]
  rfl

/-- Settles O60: the four accesses, each taken alike by the idle and by the busy block. -/
theorem hostBlobAccessesTakeEffect : Obligations.HostBlobAccessesTakeEffect := by
  intro s a l hd
  refine ⟨fun v hi hs => ?_, fun hi hs => ?_, fun v hi => step_of_wantWrite hd hi, fun v k hi hk hs => ?_⟩
  · have hn := fun w hw => (racesWrite_eq_false_iff w a).2 (hs w hw)
    exact ⟨_, step_of_blobWrite hd hi hn, Memory.read_write_same _ _ _, fun b hb => Memory.read_write_other _ _ hb⟩
  · have hstep := step_of_blobRead hd hi fun w hw => (racesRead_eq_false_iff w a).2 (hs w hw)
    exact ⟨fun v hv => by rw [hstep, hostBlobRead, State.withInputs_blob, hv]; rfl,
      fun hv => by rw [hstep, hostBlobRead, State.withInputs_blob, hv]⟩
  · have hn := fun w hw => (racesWrite_eq_false_iff w a).2 (hs w hw)
    exact ⟨_, step_of_wantedDone hd hi hk hn, Memory.read_write_same _ _ _,
      fun b hb => Memory.read_write_other _ _ hb⟩

end Sys2Proof.Machine
end

section
/-! PROOFS. The register interface (20_memory.md): which inputs a step takes, and what a register reads as after a write. -/

namespace Sys2Proof.Machine

/-! ### The inputs (R62, R220) -/

@[simp] theorem writeReg_inputs (r : Region) (w : Word) (s : State) : (writeReg r w s).inputs = s.inputs := by
  cases r <;> rfl

/-- A step leaves the inputs as they are or takes the oldest, a held one only while the block is idle (R220). -/
theorem inputs_of_step {s t : State} (h : step s = .next t) :
    t.inputs = s.inputs ∨ ∃ x, s.inputs = x :: t.inputs ∧ (x.held = true → s.running = none) := by
  cases step_ends h with
  | commandEnds w _ hw hd hq hr => exact .inl (runCommand_idle hr).2
  | idles => exact .inl rfl
  | reads a l hw hi => exact .inr ⟨_, hi, fun _ => hw⟩
  | writes a v l hw hi => exact .inr ⟨.regWrite a v, by simp [hi], fun _ => hw⟩
  | resets l hw hi => exact .inr ⟨.rst, hi, nofun⟩
  | abandons w l _ hw hd hi hr =>
    obtain ⟨-, ht, -⟩ := abandonCommand_idle hr
    exact .inr ⟨.rst, by rw [hi, ht, State.withInputs_inputs], nofun⟩
  | blobReads a l v hi => exact .inr ⟨_, hi, nofun⟩
  | blobWrites a v l hi => exact .inr ⟨_, hi, nofun⟩
  | learns f l hi => exact .inr ⟨_, hi, nofun⟩
  | peerStarts l hi => exact .inr ⟨_, hi, nofun⟩
  | peerEnds l hi => exact .inr ⟨_, hi, nofun⟩
  | wants a v l hi => exact .inr ⟨_, hi, nofun⟩
  | wantedCompletes k a v l hi => exact .inr ⟨_, hi, nofun⟩
  | wantedNone k l hi => exact .inr ⟨_, hi, nofun⟩

/-- Settles O8: a busy block with a held access at the head is quiet, so that its command completes; the rest is
`inputs_of_step`. -/
theorem accessesAreHeldAndKeptInOrder : Obligations.AccessesAreHeldAndKeptInOrder := by
  refine ⟨fun s t x l hb hi hx h => ?_, fun s t h => ?_, fun s t x h hi hx => ?_⟩
  · obtain ⟨w, hw⟩ := Option.isSome_iff_exists.1 hb
    obtain ⟨hn, ht⟩ := runCommand_idle (runCommand_of_step h hw ((quiet_eq_held hi).trans hx))
    exact ⟨ht, by simp [State.busy, hn]⟩
  · exact (inputs_of_step h).imp_right fun ⟨x, hi, _⟩ => ⟨x, hi⟩
  · rcases inputs_of_step h with ht | ⟨y, hy, hn⟩
    · simp [← ht] at hi
    · obtain rfl := (List.cons.inj (hi.symm.trans hy)).1
      simp [State.busy, hn hx]

/-! ### Reads after a write (R163, R164) -/

theorem writeReg_raw_getElem (r : Region) (w : Word) (s : State) (j : Fin 48) :
    (writeReg r w s).raw[j] = if r = .raw j then w.extractLsb' 0 8 else s.raw[j] := by
  cases r with
  | raw i => simp [writeReg, Vector.getElem_set, Fin.ext_iff]
  | _ => rfl

theorem setPixel_getElem (g : Grid) (y y' : Fin 8) (x x' : Fin 48) (p : Bool) :
    (setPixel g y x p)[y'][x'] = if y = y' ∧ x = x' then p else g[y'][x'] := by
  by_cases hy : y = y'
  · subst hy
    simp [setPixel, Vector.getElem_set, Fin.ext_iff]
  · have hne : y.val ≠ y'.val := Fin.val_ne_of_ne hy
    simp [setPixel, hy, hne]

theorem writeReg_pix_getElem (r : Region) (w : Word) (s : State) (y : Fin 8) (x : Fin 48) :
    (writeReg r w s).pix[y][x] = if r = .pix y x then pixelOfSample w else s.pix[y][x] := by
  cases r with
  | pix y' x' => simpa [writeReg] using setPixel_getElem s.pix y' y x' x (pixelOfSample w)
  | _ => rfl

/-- A write changes what no other register reads as; STATUS apart, which shows BLOB_VALID (R27, R163). -/
theorem readReg_writeReg_of_ne {r q : Region} (w : Word) (s : State) (hq : q ≠ r) (hs : q ≠ .status) :
    readReg (writeReg r w s) q = readReg s q := by
  cases q with
  | status => exact absurd rfl hs
  | cmd => rfl
  | unmapped => rfl
  | blobLen => simp [readReg, hq.symm]
  | logoLen => simp [readReg, hq.symm]
  | imgW => simp [readReg, hq.symm]
  | imgH => simp [readReg, hq.symm]
  | imgCh => simp [readReg, hq.symm]
  | raw j => simp only [readReg, writeReg_raw_getElem, if_neg hq.symm]
  | pix y x => simp only [readReg, writeReg_pix_getElem, if_neg hq.symm]

/-- Settles O44, each clause by the field lemmas of `writeReg`. -/
theorem readsSeeTheLastWrite : Obligations.ReadsSeeTheLastWrite := by
  intro s r q w
  refine ⟨?_, ?_, readReg_writeReg_of_ne w s, writeReg_err r w s, writeReg_blobValid r w s⟩
  · rintro (rfl | rfl | rfl | rfl | rfl) <;> rfl
  · rintro j rfl
    simp only [readReg, writeReg_raw_getElem, if_true, BitVec.toNat_setWidth, BitVec.extractLsb'_toNat,
      Nat.shiftRight_zero]
    omega

end Sys2Proof.Machine
end

section
/-! PROOFS. The window in the blob address space (20_memory.md): the accesses and commands on it that stop the run, and where
it lies in an attached blob. -/

namespace Sys2Proof.Machine

/-! ### Racing and late accesses, and two blocks on the window (R222 duties 3, 4 and 5) -/

theorem racesWrite_of_inWindow {w : Word} {a : BlobAddr} (h1 : 0x0104 ≤ a.toNat) (h2 : a.toNat < 0x0134)
    (hd : decode w = .command .getRaw ∨ decode w = .command .setRaw) : racesWrite w a = true := by
  rw [← Bool.not_eq_false, racesWrite_eq_false_iff]
  intro h
  exact hd.elim (h h1 h2).1 (h h1 h2).2

theorem racesRead_of_inWindow {w : Word} {a : BlobAddr} (h1 : 0x0104 ≤ a.toNat) (h2 : a.toNat < 0x0134)
    (hd : decode w = .command .setRaw) : racesRead w a = true := by
  rw [← Bool.not_eq_false, racesRead_eq_false_iff]
  exact fun h => h h1 h2 hd

/-- An input that stops a busy block stops its step, with the input's own fault unless a duty is broken before it. -/
theorem step_fault_of_interrupted {s : State} {w : Word} {x : HostInput} {l : List HostInput} {f : Fault}
    (hw : s.running = some w) (hi : s.inputs = x :: l) (hx : x.held = false)
    (hf : inputBusy w x (s.withInputs l) = .fault f) :
    ∃ g, step s = .fault g ∧ (brokenDuty w s = none → g = f) := by
  cases hd : brokenDuty w s with
  | none => exact ⟨f, by rw [step_of_interrupted hw hd hi hx, hf], fun _ => rfl⟩
  | some g => exact ⟨g, step_of_broken hw hd, nofun⟩

theorem hostRegWrite_eq_late_iff (a : RegAddr) (w : Word) (s : State) :
    hostRegWrite a w s = .fault .lateBlobWrite ↔ region a = .cmd ∧ lateWrite w s = true := by
  unfold hostRegWrite
  split <;> simp_all

/-- A command that shares the window stops the step; where nothing is known of the host's data, no duty judged earlier is
broken (logs 6 and 15). -/
theorem step_fault_of_sharesWindow {s : State} {w : Word} {i : Instr} (hw : s.running = some w)
    (hi : decode w = .command i) (hs : sharesWindow i s = true) :
    ∃ f, step s = .fault f ∧ (s.facts = HostFacts.unknown → f = .windowShared) := by
  cases hd : brokenDuty w s with
  | none => simp [brokenDuty_eq_none hi, hs] at hd
  | some f =>
    refine ⟨f, step_of_broken hw hd, fun hu => ?_⟩
    obtain ⟨hf, hm⟩ := unknown_keeps hu i
    simpa [brokenDuty, hi, hf, hm, hs, eq_comm] using hd

theorem startPeer_of_peer {s : State} (h : s.peer = true) : startPeer s = .fault .windowShared := if_pos h

theorem startPeer_of_none {s : State} (h : s.peer = false) : startPeer s = .next (s.withPeer true) := by
  simp [startPeer, h]

/-- Settles O54: the racing accesses by `step_fault_of_interrupted`, the late CMD write by `hostRegWrite_eq_late_iff`, the
shared window by `step_fault_of_sharesWindow`, and the start of another block's command alike for the idle and the busy block. -/
theorem windowRacesStopTheRun : Obligations.WindowRacesStopTheRun := by
  refine ⟨fun s w a v l hw h1 h2 hrace => ?_, fun s a w l hw hi => ?_, fun s w hw hp hv hd => ?_,
    fun s l hi => ⟨fun hp => ?_, fun hp hd => ?_⟩⟩
  · rcases hrace with ⟨hd, hi | ⟨k, hi, hk⟩⟩ | ⟨hd, hi⟩
    · exact step_fault_of_interrupted hw hi rfl (if_pos (racesWrite_of_inWindow h1 h2 hd))
    · refine step_fault_of_interrupted hw hi rfl (if_pos ?_)
      rw [racesWanted_some (s := s.withInputs l) hk, racesWrite_of_inWindow h1 h2 hd]
    · exact step_fault_of_interrupted hw hi rfl (if_pos (racesRead_of_inWindow h1 h2 hd))
  · rw [step_of_idle hw hi, inputIdle, hostRegWrite_eq_late_iff, lateWrite_withInputs, lateWrite_iff]
  · rcases hd with hd | hd <;> exact step_fault_of_sharesWindow hw hd (by simp [sharesWindow, hp, hv])
  · have hf : startPeer (s.withInputs l) = .fault .windowShared := startPeer_of_peer hp
    cases hw : s.running with
    | none => exact ⟨_, (step_of_idle hw hi).trans hf, fun _ => rfl⟩
    | some w =>
      obtain ⟨f, hs, hn⟩ := step_fault_of_interrupted hw hi rfl hf
      exact ⟨f, hs, fun hd => hn (hd w hw)⟩
  · have hn : startPeer (s.withInputs l) = .next ((s.withInputs l).withPeer true) := startPeer_of_none hp
    exact step_of_unheld hd hi rfl hn fun _ _ => hn

/-! ### The window of an attached blob (R53) -/

/-- Settles O58: the invariant's length bound is 335, past the end of the window. -/
theorem attachedWindowLiesInsideTheBlob : Obligations.AttachedWindowLiesInsideTheBlob := by
  intro s h hv
  have hl : 335 ≤ s.blobLen.toNat := h.attachedLongEnough hv
  exact ⟨hl, fun a _ ha => by omega⟩

end Sys2Proof.Machine
end

section
/-! PROOFS. The encoding of the command words (30_encoding.md): which words decode, and what running one that does not decode
does. -/

namespace Sys2Proof

/-! ### The opcode map (R72, R73) -/

/-- The opcode map, read from the side of the command. -/
theorem decodeOp_eq_command_iff (op : BitVec 8) (i : Instr) : decodeOp op = .command i ↔ op = opcode i := by
  constructor
  · intro h
    unfold decodeOp at h
    split at h
    case h_6 => cases h
    all_goals
      next hop => cases h; exact BitVec.eq_of_toNat_eq hop
  · rintro rfl
    cases i <;> rfl

theorem decodeOp_eq_illegal_iff (op : BitVec 8) : decodeOp op = .illegalCommand ↔ op.toNat = 0 ∨ 6 ≤ op.toNat := by
  unfold decodeOp
  split
  case h_6 h1 h2 h3 h4 h5 =>
    simp only [imp_false] at h1 h2 h3 h4 h5
    exact iff_of_true rfl (by omega)
  all_goals exact iff_of_false nofun (by omega)

/-! ### The command word (R70, R74) -/

theorem decode_of_zeroField_ne {w : Word} (h : zeroField w ≠ 0) : decode w = .illegalCommand := if_pos h

theorem decode_of_zeroField {w : Word} (h : zeroField w = 0) : decode w = decodeOp (opField w) := if_neg (not_not.2 h)

theorem decode_encode (i : Instr) : decode (encode i) = .command i := by
  cases i <;> rfl

/-- A command word has a clear `zero` field and the command's opcode, which together are all of it. -/
theorem decode_eq_command_iff (w : Word) (i : Instr) : decode w = .command i ↔ w = encode i := by
  refine ⟨fun h => ?_, fun h => h ▸ decode_encode i⟩
  have hz : zeroField w = 0 := by
    by_contra hz
    simp [decode_of_zeroField_ne hz] at h
  rw [decode_of_zeroField hz, decodeOp_eq_command_iff] at h
  rw [word_eq_fields w, hz, h, encode]

theorem decode_eq_illegal_iff (w : Word) :
    decode w = .illegalCommand ↔ zeroField w ≠ 0 ∨ (opField w).toNat = 0 ∨ 6 ≤ (opField w).toNat := by
  by_cases hz : zeroField w = 0
  · simp [decode_of_zeroField hz, decodeOp_eq_illegal_iff, hz]
  · exact iff_of_true (decode_of_zeroField_ne hz) (.inl hz)

/-- Settles O1: decode is the opcode map on a clear `zero` field. -/
theorem decodeFollowsTheFields : Obligations.DecodeFollowsTheFields := by
  intro w
  refine ⟨decode_of_zeroField_ne, fun hz => ?_⟩
  have hop (i : Instr) (h : opField w = opcode i) : decode w = .command i :=
    (decode_of_zeroField hz).trans ((decodeOp_eq_command_iff _ i).2 h)
  exact ⟨hop .attach, hop .getRaw, hop .setRaw, hop .decode, hop .encode, fun h => (decode_eq_illegal_iff w).2 (.inr h)⟩

/-- Settles O2: the five words are the encodings of the five commands. -/
theorem onlyTheFiveWordsSelectACommand : Obligations.OnlyTheFiveWordsSelectACommand := by
  intro w i
  rw [decode_eq_command_iff]
  cases i <;> simp [encode, opcode]

/-- Settles O3: that a word decodes to a command says that it is the command's encoding. -/
theorem encodeAndDecodeAreInverse : Obligations.EncodeAndDecodeAreInverse :=
  ⟨decode_encode, fun w i h => ((decode_eq_command_iff w i).1 h).symm⟩

/-- Settles O4, by running the decoder on each word. -/
theorem sampleWordsDecode : Obligations.SampleWordsDecode := by
  unfold Obligations.SampleWordsDecode
  decide

end Sys2Proof

namespace Sys2Proof.Machine

theorem runCommand_of_illegal {w : Word} (h : decode w = .illegalCommand) (s : State) :
    runCommand w s = .next (s.raise .illegalCommand) := by
  simp only [runCommand, h]

/-- Settles O5: an illegal word rests on no host duty, and its run is `raise` alone. -/
theorem illegalWordOnlyReportsCodeFive : Obligations.IllegalWordOnlyReportsCodeFive := by
  intro s w hw hq h
  have hd : decode w = .illegalCommand := (decode_eq_illegal_iff w).2 h
  rw [step_of_quiet hw (brokenDuty_illegal s hd) hq, runCommand_of_illegal hd]
  rfl

end Sys2Proof.Machine
end

section
/-! PROOFS. The assembler mnemonics (R75 to R77): what the idle block does with `WR` and `RD`, and with the pseudo-instructions
made of them. -/

namespace Sys2Proof.Machine

/-! ### Runs of more than one step -/

/-- A run is one step, and from there a run one step shorter. -/
theorem run_succ_of_step {s t u : State} {k : Nat} (h : step s = .next t) (hr : Sys2Proof.core.run k t = .next u) :
    Sys2Proof.core.run (k + 1) s = .next u := by
  have hs : Sys2Proof.core.step s = .next t := h
  simpa only [Host.Core.run, hs] using hr

/-! ### `WR` and `RD` (R75) -/

/-- The offset that `WR` and `RD` give a register decodes to that register (R23, R160). -/
theorem region_offset (r : Region) : region r.offset = r := by
  cases r with
  | raw j =>
    have ho : wordOffset (Region.raw j).offset = 0x100 + 4 * j.val := by
      rw [wordOffset_eq, Region.offset, BitVec.toNat_ofNat]; omega
    simp (disch := omega) only [region, ho, if_neg, dif_pos]
    congr 2; omega
  | pix y x =>
    have ho : wordOffset (Region.pix y x).offset = 0x200 + 4 * (48 * y.val + x.val) := by
      rw [wordOffset_eq, Region.offset, BitVec.toNat_ofNat]; omega
    simp (disch := omega) only [region, ho, if_neg, dif_pos, dif_neg]
    congr 2 <;> omega
  | _ => rfl

/-- The idle block takes a `WR` of any register; of CMD, where host duty 4 is kept (R162). -/
theorem step_of_wr {s : State} {r : Region} {w : Word} {l : List HostInput} (hw : s.running = none)
    (hi : s.inputs = wr r w :: l) (hl : r = .cmd → lateWrite w s = false) :
    step s = .next (writeReg r w (s.withInputs l)) := by
  rw [step_of_idle hw hi, wr, inputIdle, hostRegWrite_of_kept (by rwa [region_offset]), acceptWrite_eq, region_offset]

/-- The idle block takes an `RD` of any register (R161). -/
theorem step_of_rd {s : State} {r : Region} {l : List HostInput} (hw : s.running = none) (hi : s.inputs = rd r :: l) :
    step s = .next ((s.withInputs l).withRegRdata (readReg (s.withInputs l) r)) := by
  rw [step_of_idle hw hi, rd, inputIdle, acceptRead_eq, region_offset]

/-! ### The pseudo-instructions (R76, R77) -/

/-- Settles O9: the command completes with CHECK still held (O8), and the idle block then reads STATUS. -/
theorem checkReturnsTheCommandsResult : Obligations.CheckReturnsTheCommandsResult := by
  intro s t l hb hi h
  obtain ⟨hti, htb⟩ := accessesAreHeldAndKeptInOrder.1 s t (rd .status) l hb hi rfl h
  have hidle : t.running = none := by simpa [State.busy] using htb
  have hread := step_of_rd hidle (hti.trans hi)
  rw [readReg, statusWord_eq] at hread
  exact run_succ_of_step h (run_succ_of_step hread rfl)

/-- A command that keeps host duty 4 is accepted as its own word (R76, R222). -/
theorem step_of_issue {s : State} {i : Instr} {l : List HostInput} (hw : s.running = none) (hi : s.inputs = issue i ++ l)
    (hl : lateWrite (encode i) s = false) : step s = .next { s with running := some (encode i), inputs := l } :=
  step_of_wr hw hi fun _ => hl

/-- Settles O10: SETDIM is three register writes, a command pseudo-instruction one CMD write, and it is late only where it
is GET_RAW, attached, with a wanted write in the window. -/
theorem pseudoInstructionsExpand : Obligations.PseudoInstructionsExpand := by
  refine ⟨fun s l hw hi => ?_, fun s i l hw hi hk => ⟨encode i, decode_encode i, ?_⟩⟩
  · refine run_succ_of_step (step_of_wr hw hi nofun) ?_
    refine run_succ_of_step (step_of_wr (r := .imgH) hw rfl nofun) ?_
    exact run_succ_of_step (step_of_wr (r := .imgCh) hw rfl nofun) rfl
  · have hl : lateWrite (encode i) s = false := by
      rw [← Bool.not_eq_true, lateWrite_iff, decode_encode]
      rintro ⟨hg, hv, c, hc, h1, h2⟩
      have := hk (Decoded.command.inj hg) hv c hc
      omega
    exact run_succ_of_step (step_of_issue hw hi hl) rfl

end Sys2Proof.Machine
end

section
/-! PROOFS. The Container commands (40_container.md): each end of ATTACH, GET_RAW and SET_RAW from its own condition, and
what any command leaves of the blob. -/

namespace Sys2Proof.Machine

/-! ### ATTACH (R90, R91) -/

theorem attachWith_of_lt {m : Nat} {s : State} (h : s.blobLen.toNat < m) :
    attachWith m s = (s.withBlobValid false).raise .tooSmall :=
  if_pos ((blobTooSmall_iff m s).2 h)

theorem attachWith_of_le {m : Nat} {s : State} (h : m ≤ s.blobLen.toNat) :
    attachWith m s = (s.withBlobValid true).complete :=
  if_neg (by rw [blobTooSmall_iff]; omega)

/-- Settles O22: the two ends of ATTACH, by BLOB_LEN. -/
theorem attachChecksTheLength : Obligations.AttachChecksTheLength :=
  ⟨fun _ _ => ⟨attachWith_of_lt, attachWith_of_le⟩, fun _ => rfl⟩

/-- Settles O23: the length puts both states on the same end of ATTACH. -/
theorem attachDependsOnTheLengthAlone : Obligations.AttachDependsOnTheLengthAlone := by
  intro s u hlen
  refine ⟨attachWith 335 s, attachWith 335 u, rfl, rfl, ?_⟩
  rcases Nat.lt_or_ge s.blobLen.toNat 335 with h | h
  · rw [attachWith_of_lt h, attachWith_of_lt (hlen ▸ h)]
    simp
  · rw [attachWith_of_le h, attachWith_of_le (hlen ▸ h)]
    simp

/-! ### GET_RAW (R92, R93) -/

theorem exec_getRaw_of_detached {s : State} (hv : s.blobValid = false) :
    exec .getRaw s = .next (s.raise .notAttached) := by
  simp [exec, execGetRaw, hv]

theorem exec_getRaw_of_contents {s : State} {r : Raw} (hv : s.blobValid = true) (hr : windowContents s.blob = some r) :
    exec .getRaw s = .next (s.withRaw r).complete := by
  simp [exec, execGetRaw, hv, hr]

/-- A backed window has contents (R222 duty 2). -/
theorem exists_windowContents {m : Memory} (h : windowBacked m = true) : ∃ r, windowContents m = some r :=
  ⟨_, if_pos h⟩

/-- Settles O24: a backed window has contents, and they are its bytes. -/
theorem getRawLoadsTheWindow : Obligations.GetRawLoadsTheWindow := by
  refine fun s => ⟨exec_getRaw_of_detached, fun hv hb => ?_⟩
  obtain ⟨r, hr⟩ := exists_windowContents ((windowBacked_iff s.blob).2 hb)
  exact ⟨r, exec_getRaw_of_contents hv hr, (windowContents_eq_some s.blob r).1 hr⟩

/-! ### SET_RAW (R94, R97) -/

theorem exec_setRaw_of_detached {s : State} (hv : s.blobValid = false) :
    exec .setRaw s = .next (s.raise .notAttached) := by
  simp [exec, execSetRaw, hv]

theorem exec_setRaw_of_short {s : State} (hv : s.blobValid = true) (hl : s.logoLen.toNat < 48) :
    exec .setRaw s = .next (s.raise .logoTooSmall) := by
  simp [exec, execSetRaw, hv, (logoTooSmall_iff s).2 hl]

theorem exec_setRaw_of_backed {s : State} (hv : s.blobValid = true) (hl : 48 ≤ s.logoLen.toNat)
    (hb : windowBacked s.blob = true) : exec .setRaw s = .next (s.withBlob (storeWindow s.raw s.blob)).complete := by
  have hn : ¬ logoTooSmall s = true := by rw [logoTooSmall_iff]; omega
  simp [exec, execSetRaw, hv, hn, hb]

theorem inWindow_of_outside {a : Nat} (h : a < 0x0104 ∨ 0x0134 ≤ a) : inWindow a = false := by
  rw [← Bool.not_eq_true, inWindow_iff]
  omega

/-- How a store to the blob memory ends, as one update of the state. -/
theorem State.withBlob_complete (m : Memory) (s : State) :
    (s.withBlob m).complete = { s with blob := m, err := 0, running := none } := rfl

/-- Settles O25: the ends of SET_RAW in their order, and the laws of the stored window. -/
theorem setRawStoresTheWindow : Obligations.SetRawStoresTheWindow := by
  refine fun s => ⟨exec_setRaw_of_detached, exec_setRaw_of_short, fun hv hl hb => ?_⟩
  have hexec := exec_setRaw_of_backed hv hl ((windowBacked_iff s.blob).2 hb)
  rw [State.withBlob_complete] at hexec
  refine ⟨storeWindow s.raw s.blob, hexec, fun j => ?_, fun a ha => ?_⟩
  · rw [← windowAddr_eq, read_storeWindow_inside]
  · rw [read_storeWindow_outside _ _ (inWindow_of_outside ha)]

/-- Settles O28: the window holds RAW after the SET_RAW, and so it is what the GET_RAW loads. -/
theorem setRawThenGetRawKeepsRaw : Obligations.SetRawThenGetRawKeepsRaw := by
  intro s t u hv hl h hu hsame
  have ht : t.blob = storeWindow s.raw s.blob := by
    rw [exec_setRaw_blob h, if_pos ((setRawStores_iff s).2 ⟨hv, hl⟩)]
  have hr : windowContents u.blob = some s.raw := by
    refine (windowContents_eq_some u.blob s.raw).2 fun j => ?_
    rw [windowAddr_eq, hsame j, ht, ← windowAddr_eq, read_storeWindow_inside]
  exact ⟨_, exec_getRaw_of_contents hu hr, rfl, rfl⟩

/-! ### What is left of the blob after any command (R96) -/

/-- A command that answers leaves the blob memory, or stores RAW over a window that was backed. -/
theorem runCommand_blob_backed {w : Word} {s t : State} (h : runCommand w s = .next t) :
    t.blob = s.blob ∨ (windowBacked s.blob = true ∧ t.blob = storeWindow s.raw s.blob) := by
  rcases runCommand_cases h with ⟨-, rfl⟩ | ⟨i, -, he⟩
  · exact .inl rfl
  · cases exec_ends he with
    | setsRaw _ hv hl hb => exact .inr ⟨hb, by simp⟩
    | _ => exact .inl (by simp)

/-- Storing a window that was backed gives no further byte memory, and takes none. -/
theorem isSome_read_storeWindow {m : Memory} (hb : windowBacked m = true) (r : Raw) (a : Nat) :
    ((storeWindow r m).read a).isSome = (m.read a).isSome := by
  by_cases ha : inWindow a = true
  · obtain ⟨j, rfl⟩ := (inWindow_iff_windowAddr a).1 ha
    obtain ⟨v, hv⟩ := (windowBacked_iff m).1 hb j
    rw [read_storeWindow_inside, hv, Option.isSome_some, Option.isSome_some]
  · rw [read_storeWindow_outside r m (by simpa using ha)]

/-- Settles O27: the frame of the command word for the lengths, and the laws of the stored window for the memory. -/
theorem windowIsolation : Obligations.WindowIsolation := by
  intro w s t h
  have hframe : t.blobLen = s.blobLen ∧ t.facts = s.facts := by
    rw [runCommand_frame h]
    exact ⟨rfl, rfl⟩
  rcases runCommand_blob_backed h with ht | ⟨hb, ht⟩
  · rw [ht]
    exact ⟨fun _ _ => rfl, fun _ => rfl, hframe⟩
  · rw [ht]
    exact ⟨fun a ha => read_storeWindow_outside _ _ (inWindow_of_outside ha), isSome_read_storeWindow hb s.raw, hframe⟩

end Sys2Proof.Machine
end

section
/-! PROOFS. The codec datapath (41_codec_datapath.md): the LUT and its inverse, nibbles and bytes, the round trip of the
two transforms, the direct map between bytes and pixels, and the internal rows. -/

namespace Sys2Proof.Machine

/-! ### nibble_reorder_lut (R112 to R114) -/

theorem lutIndex_lt {x y : Nat} (hx : x < 48) (hy : y < 8) : lutIndex x y < 96 := by
  unfold lutIndex
  omega

/-- Every pixel of a block leads back to the block's nibble (R113). -/
theorem lutIndex_lutOrigin_add (k : Nat) {b : Nat} (hb : b < 4) :
    lutIndex ((lutOrigin k).1 + b) (lutOrigin k).2 = k := by
  simp only [lutIndex, lutOrigin, lutHalf, lutColumnGroup, lutRow]
  omega

theorem lutOrigin_lutIndex {x : Nat} (hx : x < 48) (y : Nat) : lutOrigin (lutIndex x y) = (4 * (x / 4), y) := by
  simp only [lutIndex, lutOrigin, lutHalf, lutColumnGroup, lutRow, Prod.mk.injEq]
  omega

/-- The origin of the nibble index that R114 splits into half, column group and row. -/
theorem lutOrigin_of_parts (h : Fin 2) (c : Fin 12) (r : Fin 4) :
    lutOrigin (48 * h.val + 4 * c.val + r.val) = (4 * c.val, 4 * h.val + r.val) := by
  simp only [lutOrigin, lutHalf, lutColumnGroup, lutRow, Prod.mk.injEq]
  omega

/-- Settles O14: a block origin is the pixel of its block at offset 0. -/
theorem lutIsABijection : Obligations.LutIsABijection := by
  refine ⟨fun k hk => ?_, fun x y h4 h44 hy => ?_⟩
  · have hx : (lutOrigin k).1 % 4 = 0 := Nat.mul_mod_right 4 _
    have hc : (lutOrigin k).1 + 3 < 48 := lutOrigin_column_lt ⟨k, hk⟩
    exact ⟨hx, by omega, lutOrigin_row_lt ⟨k, hk⟩, lutIndex_lutOrigin_add k (b := 0) (by decide)⟩
  · have hx : x < 48 := by omega
    have h : 4 * (x / 4) = x := by omega
    exact ⟨lutIndex_lt hx hy, by rw [lutOrigin_lutIndex hx, h]⟩

/-! ### The pixels of a nibble, and bit_reverse (R116 to R118) -/

/-- A nibble is its four pixels (R116). -/
theorem nibble_ext_blockPixel {n m : Nibble} (h : ∀ b < 4, blockPixel n b = blockPixel m b) : n = m := by
  refine BitVec.eq_of_getLsbD_eq fun i hi => ?_
  have hb := h (3 - i) (by omega)
  rwa [blockPixel, blockPixel, Nat.sub_sub_self (by omega)] at hb

/-- Reversing packs the bits from the low one up, so that the lowest becomes the leftmost pixel (R117). -/
theorem bitReverse_getLsbD (n : Nibble) {b : Nat} (hb : b < 4) : (bitReverse n).getLsbD b = n.getLsbD (3 - b) := by
  obtain ⟨h0, h1, h2, h3⟩ := packPixels_blockPixel (n.getLsbD 0) (n.getLsbD 1) (n.getLsbD 2) (n.getLsbD 3)
  obtain rfl | rfl | rfl | rfl : b = 0 ∨ b = 1 ∨ b = 2 ∨ b = 3 := by omega
  · exact h3
  · exact h2
  · exact h1
  · exact h0

/-- A reversed nibble holds its block's pixels in the order of the columns (R116, R117). -/
theorem bitReverse_getLsbD_eq_blockPixel (n : Nibble) {b : Nat} (hb : b < 4) :
    (bitReverse n).getLsbD b = blockPixel n b := bitReverse_getLsbD n hb

theorem blockPixel_bitReverse (n : Nibble) (b : Nat) : blockPixel (bitReverse n) b = n.getLsbD (3 - (3 - b)) :=
  bitReverse_getLsbD n (by omega)

theorem bitReverse_bitReverse (n : Nibble) : bitReverse (bitReverse n) = n :=
  nibble_ext_blockPixel fun b hb => by
    rw [blockPixel_bitReverse, bitReverse_getLsbD n (by omega), Nat.sub_sub_self (by omega), blockPixel]

/-- Settles O16: the bit rule is the definition, and each of the four nibbles is read at its four offsets. -/
theorem blockPixelsRunFromTheHighBit : Obligations.BlockPixelsRunFromTheHighBit :=
  ⟨fun _ _ => rfl, by decide⟩

/-- Settles O17, by the bit rule and the involution that follows from it. -/
theorem bitReverseReverses : Obligations.BitReverseReverses :=
  ⟨fun n b => bitReverse_getLsbD n b.isLt, bitReverse_bitReverse⟩

theorem packPixels_toNat (p0 p1 p2 p3 : Bool) :
    (packPixels p0 p1 p2 p3).toNat = 8 * p0.toNat + 4 * p1.toNat + 2 * p2.toNat + p3.toNat := by
  cases p0 <;> cases p1 <;> cases p2 <;> cases p3 <;> decide

/-- The pixels of a packed nibble are those of the grid at its block (R118). -/
theorem blockPixel_packNibble (g : Grid) (k : Fin 96) {b : Nat} (hb : b < 4) :
    blockPixel (packNibble g k) b =
      (g[(lutOrigin k).2]'(lutOrigin_row_lt k))[(lutOrigin k).1 + b]'(by have := lutOrigin_column_lt k; omega) := by
  unfold packNibble
  obtain ⟨h0, h1, h2, h3⟩ := packPixels_blockPixel _ _ _ _
  obtain rfl | rfl | rfl | rfl : b = 0 ∨ b = 1 ∨ b = 2 ∨ b = 3 := by omega
  · exact h0
  · exact h1
  · exact h2
  · exact h3

/-- Settles O19: the LUT gives the block of the nibble index, and the packed nibble weighs its four pixels. -/
theorem packerGathersBlocks : Obligations.PackerGathersBlocks := by
  intro g h c r
  have hk : 48 * h.val + 4 * c.val + r.val < 96 := by omega
  simp only [packGrid_getElem _ _ hk, packNibble, packPixels_toNat, lutOrigin_of_parts]

/-! ### nibble_extract and the joining of nibbles (R110, R119) -/

theorem joinNibbles_toNat (hi lo : Nibble) : (joinNibbles hi lo).toNat = 16 * hi.toNat + lo.toNat := by
  have h : joinNibbles hi lo = hi ++ lo := BitVec.eq_of_getLsbD_eq fun i hi => by
    rw [joinNibbles_getLsbD, BitVec.getLsbD_append]
  rw [h, BitVec.toNat_append, ← Nat.shiftLeft_add_eq_or_of_lt lo.isLt, Nat.shiftLeft_eq, Nat.mul_comm]

/-- Bit i of a nibble in its byte (R110). -/
theorem nibbleOf_getLsbD (r : Raw) (k : Fin 96) {i : Nat} (hi : i < 4) :
    (nibbleOf r k).getLsbD i = r[k.val / 2].getLsbD (i + 4 * (1 - k.val % 2)) := by
  unfold nibbleOf
  rcases Nat.mod_two_eq_zero_or_one k.val with h | h
  · simp [h, hi, Nat.add_comm]
  · simp [h, hi]

/-- Joining the two nibbles of a byte gives it back (R119). -/
theorem packBytes_nibbleExtract (r : Raw) : packBytes (nibbleExtract r) = r := by
  refine Vector.ext fun j hj => BitVec.eq_of_getLsbD_eq fun i hi => ?_
  simp only [packBytes_getElem _ _ hj, nibbleExtract_getElem, joinNibbles_getLsbD]
  split
  · next h =>
    have h1 : (2 * j + 1) / 2 = j := by omega
    have h2 : (2 * j + 1) % 2 = 1 := by omega
    simp [nibbleOf_getLsbD _ _ h, h1, h2]
  · next h =>
    have h1 : i - 4 + 4 = i := by omega
    simp [nibbleOf_getLsbD _ _ (show i - 4 < 4 by omega), h1]

/-- Splitting a joined byte gives its two nibbles back (R119). -/
theorem nibbleOf_packBytes (n : Nibbles) (k : Fin 96) : nibbleOf (packBytes n) k = n[k] := by
  refine BitVec.eq_of_getLsbD_eq fun i hi => ?_
  have hj : k.val / 2 < 48 := by omega
  rw [nibbleOf_getLsbD _ _ hi, packBytes_getElem _ _ hj, joinNibbles_getLsbD]
  rcases Nat.mod_two_eq_zero_or_one k.val with h | h
  · have hk : 2 * (k.val / 2) = k.val := by omega
    simp [h, hk]
  · have hk : 2 * (k.val / 2) + 1 = k.val := by omega
    simp [h, hi, hk]

theorem nibbleExtract_packBytes (n : Nibbles) : nibbleExtract (packBytes n) = n :=
  Vector.ext fun k hk => by rw [nibbleExtract_getElem _ _ hk, nibbleOf_packBytes]; rfl

/-- Settles O15: the two halves of a byte as quotient and remainder, and the two inverse laws. -/
theorem nibblesSplitAndJoin : Obligations.NibblesSplitAndJoin := by
  refine ⟨fun r j => ?_, fun n j => ?_, packBytes_nibbleExtract, nibbleExtract_packBytes⟩
  · have hj := r[j].isLt
    rw [nibbleExtract_getElem, nibbleExtract_getElem, nibbleOf_even, nibbleOf_odd, BitVec.extractLsb'_toNat,
      BitVec.extractLsb'_toNat, Nat.shiftRight_eq_div_pow, Nat.shiftRight_zero]
    omega
  · rw [Fin.getElem_fin, packBytes_getElem, joinNibbles_toNat]

/-! ### The round trip (R120, R121, R124) -/

/-- A pixel of a nibble's block shows that nibble (R120). -/
theorem decodePixel_lutOrigin (r : Raw) (k : Fin 96) {b : Nat} (hb : b < 4) {y : Fin 8} {x : Fin 48}
    (hy : y.val = (lutOrigin k).2) (hx : x.val = (lutOrigin k).1 + b) :
    decodePixel r y x = blockPixel (nibbleOf r k) b := by
  have hk : lutIndex x y = k := by rw [hx, hy, lutIndex_lutOrigin_add k hb]
  have hm : x.val % 4 = b := by
    rw [hx, lutOrigin]
    omega
  simp only [decodePixel, hk, hm]

/-- Packing a decoded grid gathers the nibbles it was decoded from (R118, R120). -/
theorem packGrid_decodeGrid (r : Raw) : packGrid (decodeGrid r) = nibbleExtract r := by
  refine Vector.ext fun k hk => nibble_ext_blockPixel fun b hb => ?_
  rw [packGrid_getElem, nibbleExtract_getElem, blockPixel_packNibble _ _ hb, decodeGrid_getElem]
  exact decodePixel_lutOrigin r ⟨k, hk⟩ hb rfl rfl

theorem encodeGrid_decodeGrid (r : Raw) : encodeGrid (decodeGrid r) = r := by
  rw [encodeGrid, packGrid_decodeGrid, packBytes_nibbleExtract]

theorem decodeGrid_encodeGrid (g : Grid) : decodeGrid (encodeGrid g) = g := by
  refine Vector.ext fun y hy => Vector.ext fun x hx => ?_
  have hx4 : 4 * (x / 4) + x % 4 = x := by omega
  rw [decodeGrid_getElem, decodePixel, encodeGrid, nibbleOf_packBytes, Fin.getElem_fin, packGrid_getElem,
    blockPixel_packNibble _ _ (Nat.mod_lt _ (by decide))]
  simp only [lutOrigin_lutIndex hx, hx4]

/-- Settles O13: the two transforms are inverse to each other, so that Decode is a bijection. -/
theorem decodeAndEncodeRoundTrip : Obligations.DecodeAndEncodeRoundTrip :=
  ⟨decodeGrid_encodeGrid, encodeGrid_decodeGrid,
    Function.bijective_iff_has_inverse.2 ⟨encodeGrid, encodeGrid_decodeGrid, decodeGrid_encodeGrid⟩⟩

/-! ### The direct map between bytes and pixels (R122, R123) -/

theorem lutIndex_div_two (x y : Nat) : lutIndex x y / 2 = pixelByte x y := by
  unfold lutIndex pixelByte
  omega

theorem lutIndex_mod_two (x y : Nat) : lutIndex x y % 2 = y % 2 := by
  unfold lutIndex
  omega

theorem pixelBit_eq (x y : Nat) : 3 - x % 4 + 4 * (1 - y % 2) = pixelBit x y := by
  unfold pixelBit
  omega

/-- Each pixel of Decode is its own bit of its own byte (R123). -/
theorem decodeGrid_eq_getLsbD (r : Raw) (y : Fin 8) (x : Fin 48) (j : Fin 48) (hj : j.val = pixelByte x y) :
    (decodeGrid r)[y][x] = r[j].getLsbD (pixelBit x y) := by
  have hp : (decodeGrid r)[y][x] = decodePixel r y x := decodeGrid_getElem r y x y.isLt x.isLt
  rw [hp, decodePixel, blockPixel, nibbleOf_getLsbD _ _ (by omega)]
  simp only [lutIndex_div_two, lutIndex_mod_two, pixelBit_eq, ← hj, Fin.getElem_fin]

/-- Settles O21: the bit of Decode, and for Encode the same bit by the round trip. -/
theorem pixelsComeFromTheirBits : Obligations.PixelsComeFromTheirBits := by
  intro y x j hj
  refine ⟨fun r => decodeGrid_eq_getLsbD r y x j hj, fun g => ?_⟩
  have h := decodeGrid_eq_getLsbD (encodeGrid g) y x j hj
  rw [decodeGrid_encodeGrid] at h
  exact h.symm

/-- Settles O20: each of the two rows of byte j is a case of the map of a single pixel. -/
theorem bytesLandOnTheirPixels : Obligations.BytesLandOnTheirPixels := by
  intro j
  refine ⟨by simp only [lutHalf, lutColumnGroup, lutRow]; omega, fun r b y x hx => ⟨fun hy => ?_, fun hy => ?_⟩⟩
  · have hj : j.val = pixelByte x y := by rw [pixelByte]; omega
    have hb : pixelBit x y = 7 - b.val := by rw [pixelBit]; omega
    rw [decodeGrid_eq_getLsbD r y x j hj, hb]
  · have hj : j.val = pixelByte x y := by rw [pixelByte]; omega
    have hb : pixelBit x y = 3 - b.val := by rw [pixelBit]; omega
    rw [decodeGrid_eq_getLsbD r y x j hj, hb]

/-! ### The internal rows (R117, D20) -/

/-- A placed block shows the placed bits, and every other column is as it was (R117). -/
theorem placeBlock_getLsbD (row : BitVec 48) (x : Nat) (v : Nibble) {i : Nat} (hi : i < 48) :
    (placeBlock row x v).getLsbD i = if x ≤ i ∧ i < x + 4 then v.getLsbD (i - x) else row.getLsbD i := by
  have hF : (0xF#48) = (BitVec.allOnes 4).setWidth 48 := by decide
  have hsub : i - x < 48 := by omega
  rw [placeBlock, hF]
  simp only [BitVec.getLsbD_or, BitVec.getLsbD_and, BitVec.getLsbD_not, BitVec.getLsbD_shiftLeft,
    BitVec.getLsbD_setWidth, BitVec.getLsbD_allOnes, hi, hsub, decide_true, Bool.true_and]
  rcases Nat.lt_or_ge i x with hx | hx
  · simp [hx, Nat.not_le.2 hx]
  · rcases Nat.lt_or_ge i (x + 4) with h4 | h4
    · simp [hx, h4, Nat.not_lt.2 hx, show i - x < 4 by omega]
    · have hv : v.getLsbD (i - x) = false := BitVec.getLsbD_of_ge _ _ (by omega)
      simp [hv, Nat.not_lt.2 h4, show ¬ i - x < 4 by omega]

/-- The pixels of nibble k's block are those whose index is k (R112, R113). -/
theorem lutIndex_eq_iff (k : Fin 96) {x y : Nat} (hx : x < 48) :
    lutIndex x y = k ↔ (lutOrigin k).2 = y ∧ (lutOrigin k).1 ≤ x ∧ x < (lutOrigin k).1 + 4 := by
  simp only [lutIndex, lutOrigin, lutHalf, lutColumnGroup, lutRow]
  omega

/-- Placing nibble k makes the rows show Decode at its block and leaves every other pixel. -/
theorem placeNibble_getLsbD (r : Raw) (rows : Rows) (k : Fin 96) (y : Fin 8) (x : Fin 48) :
    (placeNibble r rows k)[y].getLsbD x = if lutIndex x y = k then decodePixel r y x else rows[y].getLsbD x := by
  simp only [placeNibble, Fin.getElem_fin, Vector.getElem_set, lutIndex_eq_iff k x.isLt]
  by_cases hy : (lutOrigin k).2 = y.val
  · simp only [hy, if_true, true_and, placeBlock_getLsbD _ _ _ x.isLt]
    split
    · next hx =>
      have hb : x.val - (lutOrigin k).1 < 4 := by omega
      rw [bitReverse_getLsbD_eq_blockPixel _ hb]
      exact (decodePixel_lutOrigin r k hb hy.symm (by omega)).symm
    · rfl
  · simp only [hy, if_false, false_and]

/-- After placing the nibbles of a list, the rows show Decode at every block of the list. -/
theorem foldl_placeNibble_getLsbD (r : Raw) (y : Fin 8) (x : Fin 48) (ks : List (Fin 96)) (rows : Rows) :
    (ks.foldl (placeNibble r) rows)[y].getLsbD x =
      if ∃ k ∈ ks, lutIndex x y = k.val then decodePixel r y x else rows[y].getLsbD x := by
  induction ks generalizing rows with
  | nil => simp
  | cons k ks ih =>
    rw [List.foldl_cons, ih, placeNibble_getLsbD]
    by_cases h : lutIndex x y = k.val
    · simp [h]
    · simp [h]

theorem decodeRows_getLsbD (r : Raw) (y : Fin 8) (x : Fin 48) : (decodeRows r)[y].getLsbD x = decodePixel r y x := by
  rw [decodeRows, foldl_placeNibble_getLsbD, if_pos]
  exact ⟨⟨lutIndex x y, lutIndex_lt x.isLt y.isLt⟩, List.mem_finRange _, rfl⟩

theorem gridOfRows_decodeRows (r : Raw) : gridOfRows (decodeRows r) = decodeGrid r := by
  simp only [gridOfRows, decodeGrid, decodeRows_getLsbD]

theorem gridOfRows_rowsOfGrid (g : Grid) : gridOfRows (rowsOfGrid g) = g := by
  refine Vector.ext fun y hy => Vector.ext fun x hx => ?_
  simp [gridOfRows, rowsOfGrid]

/-- Reading a block back from the rows gives the nibble placed there (R117). -/
theorem readBlock_decodeRows (r : Raw) (k : Fin 96) (y : Fin 8) (hy : y.val = (lutOrigin k).2) :
    readBlock (decodeRows r)[y] (lutOrigin k).1 = nibbleOf r k := by
  refine nibble_ext_blockPixel fun b hb => ?_
  have hx := lutOrigin_column_lt k
  rw [readBlock, blockPixel_bitReverse, Nat.sub_sub_self (by omega), BitVec.getLsbD_extractLsb', decide_eq_true hb,
    Bool.true_and, decodeRows_getLsbD r y ⟨(lutOrigin k).1 + b, by omega⟩]
  exact decodePixel_lutOrigin r k hb hy rfl

/-- Settles O18: each placement shows Decode at its block, and the 96 blocks cover the grid. -/
theorem internalRowsShowTheDecodedPixels : Obligations.InternalRowsShowTheDecodedPixels :=
  ⟨gridOfRows_decodeRows, readBlock_decodeRows, gridOfRows_rowsOfGrid⟩

end Sys2Proof.Machine
end

section
/-! PROOFS. The Codec commands (42_codec_commands.md): the ends of DECODE and ENCODE, what they write, and their round
trips. -/

namespace Sys2Proof.Machine

/-! ### The ends of the two commands (R140, R142) -/

/-- How DECODE ends, as one update of the state. -/
theorem exec_decode (s : State) :
    exec .decode s = .next { s with pix := decodeGrid s.raw, err := 0, running := none } := rfl

/-- How a load of RAW ends, as one update of the state. -/
theorem State.withRaw_complete (r : Raw) (s : State) :
    (s.withRaw r).complete = { s with raw := r, err := 0, running := none } := rfl

/-- The shape test on the registers as words. -/
theorem shapeFits_iff_eq (s : State) : shapeFits s = true ↔ s.imgW = 48 ∧ s.imgH = 8 ∧ s.imgCh = 1 := by
  rw [shapeFits_iff, ← BitVec.toNat_inj, ← BitVec.toNat_inj, ← BitVec.toNat_inj]
  rfl

theorem exec_encode_of_shape {s : State} (hw : s.imgW = 48) (hh : s.imgH = 8) (hc : s.imgCh = 1) :
    exec .encode s = .next { s with raw := encodeGrid s.pix, err := 0, running := none } := by
  rw [exec, execEncode, if_pos ((shapeFits_iff_eq s).2 ⟨hw, hh, hc⟩), State.withRaw_complete]

theorem exec_encode_of_other_shape {s : State} (h : s.imgW ≠ 48 ∨ s.imgH ≠ 8 ∨ s.imgCh ≠ 1) :
    exec .encode s = .next { s with err := 3, running := none } := by
  rw [exec, execEncode, if_neg (by rw [shapeFits_iff_eq]; tauto)]
  rfl

/-- Settles O37: both commands write what the frame lets any command write, and neither is ATTACH. -/
theorem codecCommandsKeepTheRegisters : Obligations.CodecCommandsKeepTheRegisters := by
  intro i s t hi h
  have hvalid : t.blobValid = s.blobValid :=
    exec_blobValid_of_ne h (by rcases hi with rfl | rfl <;> decide)
  rw [exec_frame h]
  exact ⟨rfl, rfl, rfl, rfl, rfl, hvalid⟩

/-! ### What the two commands write (R120, R121) -/

/-- A nibble, by the byte that holds it (R110). -/
theorem nibbleOf_eq_ite (r : Raw) (k : Fin 96) (j : Fin 48) (hj : j.val = k.val / 2) :
    nibbleOf r k = if k.val % 2 = 0 then r[j].extractLsb' 4 4 else r[j].extractLsb' 0 4 := by
  simp only [nibbleOf, ← hj, Fin.getElem_fin]

/-- Settles O32: the index of the statement is the inverse LUT's, and a pixel is its bit of that nibble. -/
theorem decodeWritesEveryPixel : Obligations.DecodeWritesEveryPixel := by
  refine fun s => ⟨decodeGrid s.raw, exec_decode s, fun y x j k hk hj => ?_⟩
  obtain rfl : k = lutIndex x y := hk
  have hpix : (decodeGrid s.raw)[y][x] = decodePixel s.raw y x := decodeGrid_getElem s.raw y x y.isLt x.isLt
  rw [hpix, decodePixel, nibbleOf_eq_ite _ _ j hj, blockPixel]
  exact apply_ite (BitVec.getLsbD · (3 - x.val % 4)) _ _ _

/-- Each bit of Encode is its own pixel (R123). -/
theorem encodeGrid_getLsbD (g : Grid) (y : Fin 8) (x : Fin 48) (j : Fin 48) {i : Nat} (hj : j.val = pixelByte x y)
    (hi : i = pixelBit x y) : (encodeGrid g)[j].getLsbD i = g[y][x] :=
  hi ▸ (pixelsComeFromTheirBits y x j hj).2 g

/-- Settles O33: the shape decides the end, and each pixel of the two blocks of byte j is a case of the direct map. -/
theorem encodePacksEveryByte : Obligations.EncodePacksEveryByte := by
  refine fun s => ⟨exec_encode_of_other_shape, fun hw hh hc =>
    ⟨encodeGrid s.pix, exec_encode_of_shape hw hh hc, fun j b y x => ⟨fun hx hy => ?_, fun hx hy => ?_⟩⟩⟩
  · exact encodeGrid_getLsbD s.pix y x j (by rw [pixelByte]; omega) (by rw [pixelBit]; omega)
  · exact encodeGrid_getLsbD s.pix y x j (by rw [pixelByte]; omega) (by rw [pixelBit]; omega)

/-! ### Buffers of one value (R140, R142) -/

/-- Bytes of eight equal bits decode to pixels of that value. -/
theorem decodeGrid_replicate (p : Bool) :
    decodeGrid (Vector.replicate 48 (BitVec.fill 8 p)) = Vector.replicate 8 (Vector.replicate 48 p) := by
  refine Vector.ext fun y hy => Vector.ext fun x hx => ?_
  have hj : pixelByte x y < 48 := by rw [pixelByte]; omega
  have hi : pixelBit x y < 8 := by rw [pixelBit]; omega
  have hpix := decodeGrid_eq_getLsbD (Vector.replicate 48 (BitVec.fill 8 p)) ⟨y, hy⟩ ⟨x, hx⟩ ⟨pixelByte x y, hj⟩ rfl
  simpa [BitVec.getLsbD_fill, hi] using hpix

/-- Pixels of one value encode to bytes of eight equal bits. -/
theorem encodeGrid_replicate (p : Bool) :
    encodeGrid (Vector.replicate 8 (Vector.replicate 48 p)) = Vector.replicate 48 (BitVec.fill 8 p) := by
  rw [← decodeGrid_replicate, encodeGrid_decodeGrid]

theorem raw_eq_replicate {r : Raw} {v : Byte} (h : ∀ j : Fin 48, r[j] = v) : r = Vector.replicate 48 v :=
  Vector.ext fun j hj => by simpa using h ⟨j, hj⟩

theorem grid_eq_replicate {g : Grid} {p : Bool} (h : ∀ (y : Fin 8) (x : Fin 48), g[y][x] = p) :
    g = Vector.replicate 8 (Vector.replicate 48 p) :=
  Vector.ext fun y hy => Vector.ext fun x hx => by simpa using h ⟨y, hy⟩ ⟨x, hx⟩

/-- DECODE of bytes of eight equal bits (R140). -/
theorem exec_decode_of_fill {s : State} {p : Bool} (h : ∀ j : Fin 48, s.raw[j] = BitVec.fill 8 p) :
    ∃ t, exec .decode s = .next t ∧ ∀ (y : Fin 8) (x : Fin 48), t.pix[y][x] = p := by
  refine ⟨_, exec_decode s, fun y x => ?_⟩
  simp [raw_eq_replicate h, decodeGrid_replicate]

/-- ENCODE of pixels of one value (R142). -/
theorem exec_encode_of_fill {s : State} {p : Bool} (hw : s.imgW = 48) (hh : s.imgH = 8) (hc : s.imgCh = 1)
    (h : ∀ (y : Fin 8) (x : Fin 48), s.pix[y][x] = p) :
    ∃ t, exec .encode s = .next t ∧ ∀ j : Fin 48, t.raw[j] = BitVec.fill 8 p := by
  refine ⟨_, exec_encode_of_shape hw hh hc, fun j => ?_⟩
  simp [grid_eq_replicate h, encodeGrid_replicate]

/-- Settles O34: 0x00 and 0xFF are the two bytes of eight equal bits. -/
theorem blankAndFullBuffersConvert : Obligations.BlankAndFullBuffersConvert := by
  have hoff : BitVec.fill 8 false = 0x00 := rfl
  have hon : BitVec.fill 8 true = 0xFF := rfl
  intro s
  rw [← hoff, ← hon]
  exact ⟨exec_decode_of_fill, exec_decode_of_fill, fun hw hh hc =>
    ⟨exec_encode_of_fill hw hh hc, exec_encode_of_fill hw hh hc⟩⟩

/-! ### Runs of both commands (R141, R145) -/

/-- Settles O35: DECODE keeps RAW, and PIX is a function of RAW alone. -/
theorem decodingTwiceGivesTheSameGrid : Obligations.DecodingTwiceGivesTheSameGrid := by
  intro s t u h hraw
  cases exec_ends h with
  | decodes => exact ⟨_, exec_decode u, congrArg decodeGrid hraw⟩

/-- Settles O36: the round trip of the two transforms, each command's operand being the other's result. -/
theorem commandRoundTrips : Obligations.CommandRoundTrips := by
  refine ⟨fun s t u h hpix hw hh hc => ?_, fun s t u h herr hraw => ?_⟩
  · cases exec_ends h with
    | decodes =>
      exact ⟨_, exec_encode_of_shape hw hh hc, rfl, (congrArg encodeGrid hpix).trans (encodeGrid_decodeGrid s.raw)⟩
  · cases exec_ends h with
    | encodeFails => exact absurd herr (by decide : ErrorKind.invalidDimensions.code ≠ 0)
    | encodes => exact ⟨_, exec_decode u, rfl, (congrArg decodeGrid hraw).trans (decodeGrid_encodeGrid s.pix)⟩

end Sys2Proof.Machine
end

section
/-! PROOFS. The host's register accesses (43_host_access.md): the address map, what `RD` and `WR` do to the idle block,
and what PIX keeps of a sample. -/

namespace Sys2Proof.Machine

/-! ### The address map (R160) -/

/-- Offsets of one word name one register (R56, R160). -/
theorem region_congr {a b : RegAddr} (h : a.toNat / 4 = b.toNat / 4) : region a = region b := by
  simp only [region, wordOffset_eq, h]

/-- An offset in the word of a register's own offset names that register (R23, R160). -/
theorem region_of_same_word {a : RegAddr} (r : Region) (h : a.toNat / 4 = r.offset.toNat / 4) : region a = r :=
  (region_congr h).trans (region_offset r)

/-- The three gaps of the map (R160). -/
theorem region_of_gap {a : RegAddr}
    (h : (0x01C ≤ a.toNat ∧ a.toNat < 0x100) ∨ (0x1C0 ≤ a.toNat ∧ a.toNat < 0x200) ∨ 0x800 ≤ a.toNat) :
    region a = .unmapped := by
  have ho := wordOffset_eq a
  simp (disch := omega) only [region, if_neg, dif_neg]

/-- Settles O41: each register by its own offset, and the gaps apart. -/
theorem addressesDecodeByTheMap : Obligations.AddressesDecodeByTheMap := by
  intro a
  refine ⟨region_of_same_word .cmd, region_of_same_word .status, region_of_same_word .blobLen,
    region_of_same_word .logoLen, region_of_same_word .imgW, region_of_same_word .imgH, region_of_same_word .imgCh,
    fun j h => region_of_same_word (.raw j) ?_, fun y x h => region_of_same_word (.pix y x) ?_, region_of_gap⟩
  · rw [h, Region.offset, BitVec.toNat_ofNat]; omega
  · rw [h, Region.offset, BitVec.toNat_ofNat]; omega

/-! ### Register reads (R161) -/

/-- The idle block takes a register read at any offset. -/
theorem step_of_regRead {s : State} {a : RegAddr} {l : List HostInput} (hw : s.running = none)
    (hi : s.inputs = .regRead a :: l) :
    step s = .next { s with regRdata := readReg s (region a), inputs := l } :=
  step_of_idle hw hi

/-- STATUS reads as ERR with BLOB_VALID at bit 4 (R25). -/
theorem statusWord_toNat (s : State) : (statusWord s).toNat = s.err.toNat + 16 * s.blobValid.toNat := by
  have he := s.err.isLt
  have hv := s.blobValid.toNat_le
  rw [statusWord_eq, BitVec.toNat_ofNat]
  omega

/-- A RAW entry reads zero-extended (R161). -/
theorem readReg_raw_toNat (s : State) (j : Fin 48) : (readReg s (.raw j)).toNat = s.raw[j].toNat :=
  BitVec.toNat_setWidth_of_le (by decide)

/-- Settles O42: the value is `readReg`'s, and each clause is its case at the named region. -/
theorem readsReturnTheRegister : Obligations.ReadsReturnTheRegister := by
  intro s a l hw hi
  have hv {r : Region} : region a = r → readReg s (region a) = readReg s r := congrArg (readReg s)
  refine ⟨readReg s (region a), step_of_regRead hw hi, fun h => h.elim hv hv, fun h => ?_, hv, hv, hv, hv, hv,
    fun j h => ?_, fun y x => hv⟩
  · rw [hv h]; exact statusWord_toNat s
  · rw [hv h]; exact readReg_raw_toNat s j

/-! ### Register writes (R162, R166) -/

/-- The idle block takes a register write at any offset; at CMD, where host duty 4 is kept. -/
theorem step_of_regWrite {s : State} {a : RegAddr} {w : Word} {l : List HostInput} {r : Region} (hw : s.running = none)
    (hi : s.inputs = .regWrite a w :: l) (hr : region a = r) (hl : r = .cmd → lateWrite w s = false) :
    step s = .next (writeReg r w (s.withInputs l)) := by
  subst hr
  rw [step_of_idle hw hi, inputIdle, hostRegWrite_of_kept (s := s.withInputs l) hl, acceptWrite_eq]

theorem lowByte_toNat (w : Word) : (w.extractLsb' 0 8).toNat = w.toNat % 256 := by
  rw [BitVec.extractLsb'_toNat, Nat.shiftRight_zero]

/-- A sample stores an on pixel exactly when its low byte is not 0 (R166). -/
theorem pixelOfSample_eq (w : Word) : pixelOfSample w = decide (w.toNat % 256 ≠ 0) := by
  rw [Bool.eq_iff_iff, pixelOfSample, bne_iff_ne, decide_eq_true_eq, ne_eq, ← BitVec.toNat_inj, lowByte_toNat]
  rfl

/-- A write to RAW[j] stores the low byte there and keeps every other entry (R162). -/
theorem writeReg_raw_getElem_toNat (j i : Fin 48) (w : Word) (s : State) :
    (writeReg (.raw j) w s).raw[i].toNat = if i = j then w.toNat % 256 else s.raw[i].toNat := by
  rw [writeReg_raw_getElem, apply_ite BitVec.toNat, lowByte_toNat]
  simp only [Region.raw.injEq, eq_comm]

/-- A write to PIX[y][x] stores the test of the low byte there and keeps every other entry (R162, R166). -/
theorem writeReg_pix_getElem_eq (y y' : Fin 8) (x x' : Fin 48) (w : Word) (s : State) :
    (writeReg (.pix y x) w s).pix[y'][x'] =
      if y' = y ∧ x' = x then decide (w.toNat % 256 ≠ 0) else s.pix[y'][x'] := by
  rw [writeReg_pix_getElem, pixelOfSample_eq]
  simp only [Region.pix.injEq, eq_comm]

/-- Settles O43: the write is `writeReg`'s, each clause its case at the named region; an entry of RAW or PIX by the laws
of a single entry. -/
theorem writesStoreTheRegister : Obligations.WritesStoreTheRegister := by
  intro s a w l hw hi
  have store {r : Region} (hr : region a = r) (hc : r ≠ .cmd) : step s = .next (writeReg r w (s.withInputs l)) :=
    step_of_regWrite hw hi hr fun h => absurd h hc
  refine ⟨fun h hl => step_of_regWrite hw hi h fun _ => hl, fun h => ?_, fun h => store h nofun,
    fun h => store h nofun, fun h => store h nofun, fun h => store h nofun, fun h => store h nofun,
    fun j h => ⟨_, store h nofun, fun i => ?_⟩, fun y x h => ⟨_, store h nofun, fun y' x' => ?_⟩⟩
  · exact h.elim (store · nofun) (store · nofun)
  · exact writeReg_raw_getElem_toNat j i w s
  · exact writeReg_pix_getElem_eq y y' x x' w s

/-! ### Samples of PIX (R167) -/

theorem sampleOfPixel_toNat (p : Bool) : (sampleOfPixel p).toNat = if p then 255 else 0 := by
  cases p <;> rfl

/-- A sample written to PIX reads back as 0xFF or 0x00, by its low byte (R165, R166). -/
theorem readReg_writeReg_pix_toNat (s : State) (y : Fin 8) (x : Fin 48) (w : Word) :
    (readReg (writeReg (.pix y x) w s) (.pix y x)).toNat = if w.toNat % 256 = 0 then 0 else 255 := by
  rw [readReg, sampleOfPixel_toNat, writeReg_pix_getElem_eq, if_pos (show y = y ∧ x = x from ⟨rfl, rfl⟩)]
  simp only [decide_eq_true_eq, ne_eq, ite_not]

/-- Settles O45: the sample reads back as 0 or 255, which is its low byte only where that is 0 or 255. -/
theorem pixelSamplesReadBackAsFullOrNone : Obligations.PixelSamplesReadBackAsFullOrNone := by
  intro s y x w
  rw [readReg_writeReg_pix_toNat]
  refine ⟨rfl, ?_⟩
  split <;> omega

end Sys2Proof.Machine
end

section
/-! PROOFS. Errors (60_exceptions.md): what a command that fails changes, which error it reports, and the false declarations
that stop the run. -/

namespace Sys2Proof.Machine

/-! ### What an error changes (R183) -/

/-- A command fails by `raise` alone, but that ATTACH detaches first (R90); every other end leaves ERR 0. -/
theorem exec_eq_raise_of_err_ne {i : Instr} {s t : State} (h : exec i s = .next t) (he : t.err ≠ 0) :
    ∃ k : ErrorKind, t = (if i = .attach then s.withBlobValid false else s).raise k := by
  cases exec_ends h with
  | attachFails => exact ⟨.tooSmall, rfl⟩
  | getRawDetached => exact ⟨.notAttached, rfl⟩
  | setRawDetached => exact ⟨.notAttached, rfl⟩
  | setRawShort => exact ⟨.logoTooSmall, rfl⟩
  | encodeFails => exact ⟨.invalidDimensions, rfl⟩
  | attaches | getsRaw | setsRaw | decodes | encodes => exact absurd (State.complete_err _) he

/-- Settles O39: an illegal word and every command that fails end in `raise`, and only ATTACH detaches before it. -/
theorem errorsArePrecise : Obligations.ErrorsArePrecise := by
  intro w s t h he
  rcases runCommand_cases h with ⟨hd, rfl⟩ | ⟨i, hd, hexec⟩
  · exact ⟨fun ha => absurd (hd.symm.trans ha) nofun, fun _ => rfl⟩
  · obtain ⟨k, rfl⟩ := exec_eq_raise_of_err_ne hexec he
    simp only [hd, ne_eq, Decoded.command.injEq]
    refine ⟨fun ha => ?_, fun ha => ?_⟩
    · rw [if_pos ha]; rfl
    · rw [if_neg ha]; rfl

/-! ### The error reported (R180, R184) -/

theorem exec_attach_err {s t : State} (h : exec .attach s = .next t) :
    t.err = if s.blobLen.toNat < 335 then 1 else 0 := by
  rcases exec_attach_status h with ⟨hl, -, he⟩ | ⟨hl, -, he⟩
  · rw [he, if_neg (Nat.not_lt.2 hl)]
  · rw [he, if_pos hl]

theorem exec_getRaw_err {s t : State} (h : exec .getRaw s = .next t) : t.err = if s.blobValid then 0 else 4 := by
  cases exec_ends h with
  | getRawDetached _ hv => simp [hv, ErrorKind.code]
  | getsRaw _ r hv => simp [hv]

/-- NotAttached comes before LogoTooSmall (R184). -/
theorem exec_setRaw_err {s t : State} (h : exec .setRaw s = .next t) :
    t.err = if s.blobValid then (if s.logoLen.toNat < 48 then 2 else 0) else 4 := by
  cases exec_ends h with
  | setRawDetached _ hv => simp [hv, ErrorKind.code]
  | setRawShort _ hv hl => simp [hv, hl, ErrorKind.code]
  | setsRaw _ hv hl => simp [hv, Nat.not_lt.2 hl]

theorem exec_decode_err {s t : State} (h : exec .decode s = .next t) : t.err = 0 := by
  cases exec_ends h with
  | decodes => rfl

theorem exec_encode_err {s t : State} (h : exec .encode s = .next t) :
    t.err = if s.imgW = 48 ∧ s.imgH = 8 ∧ s.imgCh = 1 then 0 else 3 := by
  simp only [← shapeFits_iff_eq]
  cases exec_ends h with
  | encodeFails _ hf => simp [hf, ErrorKind.code]
  | encodes _ hf => simp [hf]

/-- Settles O40: code 5 is `raise`'s for an illegal word, and each command reports its own error. -/
theorem theFirstErrorIsReported : Obligations.TheFirstErrorIsReported := by
  intro w s t h
  have runs {i : Instr} (hd : decode w = .command i) : exec i s = .next t := (runCommand_of_command hd s).symm.trans h
  refine ⟨fun hd => ?_, fun hd => exec_attach_err (runs hd), fun hd => exec_getRaw_err (runs hd),
    fun hd => exec_setRaw_err (runs hd), fun hd => exec_decode_err (runs hd), fun hd => exec_encode_err (runs hd)⟩
  rw [runCommand_of_illegal hd] at h
  cases h
  rfl

/-! ### False declarations (R191, R222 duty 1) -/

/-- A known true value that the register does not hold, saturated, is no true declaration. -/
theorem declaresTruly_eq_false {w : Word} {truth : Option Nat} {n : Nat} (ht : truth = some n)
    (hne : w.toNat ≠ min n 0xFFFFFFFF) : declaresTruly w truth = false := by
  rwa [ht, ← Bool.not_eq_true, declaresTruly_some]

/-- Duty 1 is judged before every other duty and before any input. -/
theorem step_of_declaresFalsely {s : State} {w : Word} {i : Instr} (hw : s.running = some w)
    (hi : decode w = .command i) (hf : declaresFalsely i s = true) : step s = .fault .falseDeclaration :=
  step_of_broken hw (by simp only [brokenDuty, hi, hf, if_true])

/-- Nothing stops a DECODE that no input interrupts: it rests on no duty (R140). -/
theorem step_of_decode {s : State} {w : Word} (hw : s.running = some w) (hi : decode w = .command .decode)
    (hq : s.quiet = true) : step s = exec .decode s := by
  rw [step_of_quiet hw ((brokenDuty_eq_none hi).2 ⟨rfl, rfl, rfl⟩) hq, runCommand_of_command hi]

/-- Settles O55: the register's false declaration is one of those the command is judged by. -/
theorem falseDeclarationsStopTheRun : Obligations.FalseDeclarationsStopTheRun := by
  refine fun s w n hw => ⟨fun ht hne hd => ?_, fun ht hne hd hv => ?_, fun ht hd => ?_,
    fun hd hq => ⟨_, step_of_decode hw hd hq⟩⟩
  · have hf := declaresTruly_eq_false ht hne
    rcases hd with hd | ⟨hd | hd, hv⟩
    · exact step_of_declaresFalsely hw hd (by simp [declaresFalsely, hf])
    · exact step_of_declaresFalsely hw hd (by simp [declaresFalsely, hf, hv])
    · exact step_of_declaresFalsely hw hd (by simp [declaresFalsely, hf, hv])
  · exact step_of_declaresFalsely hw hd (by simp [declaresFalsely, declaresTruly_eq_false ht hne, hv])
  · refine step_of_declaresFalsely hw hd ?_
    rcases ht with ⟨ht, hne⟩ | ⟨ht, hne⟩ | ⟨ht, hne⟩ <;>
      simp [declaresFalsely, declaresTruly_eq_false ht hne]

end Sys2Proof.Machine
end

section
/-! PROOFS. Completion and reset (70_reset_and_hazards.md): every command ends, what `rst` leaves behind, and the memory whose
lack stops the run. -/

namespace Sys2Proof.Machine

/-! ### Every command completes (R224) -/

theorem exec_completes (i : Instr) {s : State} (hb : s.windowHeld) : ∃ t, exec i s = .next t := by
  cases i with
  | attach => exact ⟨_, rfl⟩
  | getRaw =>
    cases hv : s.blobValid with
    | false => exact ⟨_, exec_getRaw_of_detached hv⟩
    | true =>
      obtain ⟨r, hr⟩ := exists_windowContents (hb hv)
      exact ⟨_, exec_getRaw_of_contents hv hr⟩
  | setRaw =>
    cases hv : s.blobValid with
    | false => exact ⟨_, exec_setRaw_of_detached hv⟩
    | true =>
      rcases Nat.lt_or_ge s.logoLen.toNat 48 with hl | hl
      · exact ⟨_, exec_setRaw_of_short hv hl⟩
      · exact ⟨_, exec_setRaw_of_backed hv hl (hb hv)⟩
  | decode => exact ⟨_, rfl⟩
  | encode => rcases execEncode_cases s with ⟨-, he⟩ | ⟨-, he⟩ <;> exact ⟨_, he⟩

theorem runCommand_completes (w : Word) {s : State} (hb : s.windowHeld) : ∃ t, runCommand w s = .next t := by
  cases hd : decode w with
  | command i => rw [runCommand_of_command hd]; exact exec_completes i hb
  | illegalCommand => exact ⟨_, runCommand_of_illegal hd s⟩

/-- Settles O11: the quiet busy block runs its word, and that completes and leaves it idle. -/
theorem everyCommandCompletes : Obligations.EveryCommandCompletes := by
  intro s hbusy hq hb hd
  obtain ⟨w, hw⟩ := Option.isSome_iff_exists.1 hbusy
  obtain ⟨t, ht⟩ := runCommand_completes w hb
  obtain ⟨hrun, hin⟩ := runCommand_idle ht
  exact ⟨t, by rw [step_of_quiet hw (hd w hw) hq, ht], by simp [State.busy, hrun], hin⟩

/-! ### What a reset leaves behind (R210 to R213) -/

/-- Settles O57: the reset state is detached, without error, and lists no blob byte. -/
theorem resetMeetsTheInvariant : Obligations.ResetMeetsTheInvariant where
  errProduced := Nat.zero_le 5
  attachedLongEnough := nofun
  attachedBacked := nofun
  blobCanonical := ⟨.nil, nofun⟩

/-- The state after a reset that the step takes, idle or busy: `applyReset`, over the blob memory that was there or, where
the reset cuts off a SET_RAW past its checks, over the one this leaves. -/
theorem rst_cases {s t : State} {l : List HostInput} (h : step s = .next t) (hi : s.inputs = .rst :: l) :
    ∃ m, t = ((s.withInputs l).withBlob m).applyReset ∧
      (m = s.blob ∨
        ((∃ w, s.running = some w ∧ decode w = .command .setRaw) ∧ setRawStores s = true ∧
          ∃ old, windowContents s.blob = some old ∧ m = storeWindow (abandonedWindow s.draws old s.raw) s.blob)) := by
  cases hw : s.running with
  | none =>
    rw [step_of_idle hw hi] at h
    cases h
    exact ⟨s.blob, rfl, .inl rfl⟩
  | some w =>
    rw [step_of_interrupted hw (dutiesKept_of_step h w hw) hi rfl] at h
    rcases abandonCommand_cases h with rfl | ⟨hd, hs, old, ho, rfl⟩
    · exact ⟨s.blob, rfl, .inl rfl⟩
    · exact ⟨_, rfl, .inr ⟨⟨w, rfl, hd⟩, hs, old, ho, rfl⟩⟩

/-- Settles O51: `rst_cases`, and the fields of `applyReset`. -/
theorem resetClearsTheControlState : Obligations.ResetClearsTheControlState := by
  refine ⟨by simp [State.reset, State.busy], fun s l hi hw => ⟨_, step_of_idle hw hi⟩, fun s t l hi h => ?_⟩
  obtain ⟨m, rfl, -⟩ := rst_cases h hi
  simp [State.busy]

/-- Settles O52: `rst_cases`, and the draws of `applyReset`, which the blob memory has no part in. -/
theorem resetDrawsRawAndPix : Obligations.ResetDrawsRawAndPix := by
  intro s t l hi h
  obtain ⟨m, rfl, -⟩ := rst_cases h hi
  simp

/-- Each window byte that an abandoned SET_RAW leaves is the old one or RAW's (R213, U2). -/
theorem abandonedWindow_getElem (draw : Nat) (old new : Raw) (j : Fin 48) :
    (abandonedWindow draw old new)[j] = old[j] ∨ (abandonedWindow draw old new)[j] = new[j] := by
  simp only [abandonedWindow, Fin.getElem_fin, Vector.getElem_ofFn]
  split
  · exact .inr rfl
  · exact .inl rfl

theorem abandon_completes (i : Instr) {s : State} (hb : s.windowHeld) : ∃ t, abandon i s = .next t := by
  cases i with
  | attach | decode | encode => exact ⟨_, rfl⟩
  | getRaw => exact ⟨_, if_neg (by simpa [State.windowHeld] using hb)⟩
  | setRaw =>
    cases hs : setRawStores s with
    | false => exact ⟨s.applyReset, by simp [abandon, hs]⟩
    | true =>
      obtain ⟨old, ho⟩ := exists_windowContents (hb ((setRawStores_iff s).1 hs).1)
      simp [abandon, hs, abandonSetRaw, ho]

theorem abandonCommand_of_command {w : Word} {i : Instr} (h : decode w = .command i) (s : State) :
    abandonCommand w s = abandon i s := by
  simp only [abandonCommand, h]

theorem abandonCommand_completes (w : Word) {s : State} (hb : s.windowHeld) : ∃ t, abandonCommand w s = .next t := by
  cases hd : decode w with
  | command i => rw [abandonCommand_of_command hd]; exact abandon_completes i hb
  | illegalCommand => exact ⟨s.applyReset, by simp only [abandonCommand, hd]⟩

theorem rst_completes {s : State} {l : List HostInput} (hi : s.inputs = .rst :: l) (hb : s.windowHeld)
    (hd : s.dutiesKept) : ∃ t, step s = .next t := by
  cases hw : s.running with
  | none => exact ⟨_, step_of_idle hw hi⟩
  | some w =>
    rw [step_of_interrupted hw (hd w hw) hi rfl]
    exact abandonCommand_completes w (s := s.withInputs l) hb

/-- Settles O53: the memory by `rst_cases` with the laws of the stored window, and the next state by `rst_completes`. -/
theorem resetAbandonsTheCommand : Obligations.ResetAbandonsTheCommand := by
  refine ⟨fun s t l hi h => ?_, fun s l hi hb hd => ?_⟩
  · obtain ⟨m, rfl, hm⟩ := rst_cases h hi
    simp only [State.applyReset_blob, State.withBlob_blob]
    rcases hm with hm | ⟨⟨w, hw, hd⟩, hs, old, ho, hm⟩ <;> rw [hm]
    · exact ⟨fun _ _ => rfl, fun _ => .inl rfl, fun _ _ => rfl⟩
    · obtain ⟨hv, hl⟩ := (setRawStores_iff s).1 hs
      refine ⟨?_, fun j => ?_, fun a ha => read_storeWindow_outside _ _ (inWindow_of_outside ha)⟩
      · rintro (hn | hn | hn)
        · exact absurd hd (hn w hw)
        · simp [hv] at hn
        · omega
      · rw [← windowAddr_eq, read_storeWindow_inside, (windowContents_eq_some s.blob old).1 ho j, Option.some.injEq,
          Option.some.injEq]
        exact abandonedWindow_getElem s.draws old s.raw j
  · obtain ⟨t, ht⟩ := rst_completes hi hb hd
    obtain ⟨m, rfl, -⟩ := rst_cases ht hi
    exact ⟨_, ht, rfl⟩

/-! ### Memory that is not there (R222 duty 2) -/

theorem windowBacked_eq_false {m : Memory} {j : Fin 48} (h : m.read (windowAddr j) = none) : windowBacked m = false := by
  rw [← Bool.not_eq_true, windowBacked_iff]
  intro hb
  obtain ⟨v, hv⟩ := hb j
  simp [h] at hv

section Unbacked
variable {s : State} (hv : s.blobValid = true) (hb : windowBacked s.blob = false)
include hv hb

theorem exec_getRaw_of_unbacked : exec .getRaw s = .fault .unbackedWindow := by
  simp [exec, execGetRaw, hv, (windowContents_eq_none s.blob).2 hb]

theorem exec_setRaw_of_unbacked (hl : 48 ≤ s.logoLen.toNat) : exec .setRaw s = .fault .unbackedWindow := by
  have hn : ¬ logoTooSmall s = true := by rw [logoTooSmall_iff]; omega
  simp [exec, execSetRaw, hv, hn, hb]

theorem abandon_getRaw_of_unbacked : abandon .getRaw s = .fault .unbackedWindow := by
  simp [abandon, abandonGetRaw, hv, hb]

theorem abandon_setRaw_of_unbacked (hl : 48 ≤ s.logoLen.toNat) : abandon .setRaw s = .fault .unbackedWindow := by
  have hs : setRawStores s = true := (setRawStores_iff s).2 ⟨hv, hl⟩
  simp [abandon, hs, abandonSetRaw, (windowContents_eq_none s.blob).2 hb]

end Unbacked

/-- A reset of a busy block whose duties are kept abandons the command (R213). -/
theorem step_of_rst {s : State} {w : Word} {i : Instr} {l : List HostInput} (hw : s.running = some w)
    (hd : brokenDuty w s = none) (hi : s.inputs = .rst :: l) (hc : decode w = .command i) :
    step s = abandon i (s.withInputs l) := by
  rw [step_of_interrupted hw hd hi rfl, inputBusy, abandonCommand_of_command hc]

theorem blobBacked_eq_false {s : State} {n : Nat} (h : s.facts.backedLen = some n) (hn : n < s.blobLen.toNat) :
    blobBacked s = false := by
  rw [← Bool.not_eq_true, blobBacked_some h]
  omega

/-- The commands that rest on the blob's memory rest on no other declaration than BLOB_LEN and LOGO_LEN (log 6). -/
theorem declaresFalsely_of_lacksMemory {i : Instr} {s : State} (hm : lacksMemory i s = true)
    (hb : s.facts.blobLen = none) (hl : s.facts.logoLen = none) : declaresFalsely i s = false := by
  cases i with
  | attach | getRaw | setRaw => simp [declaresFalsely, declaresTruly, hb, hl]
  | decode => rfl
  | encode => cases hm

/-- A command that lacks memory stops the step; where neither true length is known, no duty judged earlier is broken. -/
theorem step_fault_of_lacksMemory {s : State} {w : Word} {i : Instr} (hw : s.running = some w)
    (hi : decode w = .command i) (hm : lacksMemory i s = true) :
    ∃ f, step s = .fault f ∧ (s.facts.blobLen = none → s.facts.logoLen = none → f = .unbackedBlob) := by
  cases hd : brokenDuty w s with
  | none => simp [brokenDuty_eq_none hi, hm] at hd
  | some f =>
    refine ⟨f, step_of_broken hw hd, fun hb hl => ?_⟩
    simpa [brokenDuty, hi, declaresFalsely_of_lacksMemory hm hb hl, hm, eq_comm] using hd

/-- Settles O26: the unlisted window byte by each end it cuts off, the known lack of memory by `step_fault_of_lacksMemory`,
and the change that makes it known alike for the idle and the busy block. -/
theorem unbackedWindowStopsTheRun : Obligations.UnbackedWindowStopsTheRun := by
  refine ⟨fun s j hv hj => ?_, fun s w n hw hn hlt hc => ?_, fun s g l n hi hv hn hlt => ?_⟩
  · have hb : windowBacked s.blob = false := windowBacked_eq_false hj
    refine ⟨exec_getRaw_of_unbacked hv hb, exec_setRaw_of_unbacked hv hb,
      fun w l hw hd hi => ⟨fun hc => ?_, fun hc hl => ?_⟩⟩
    · rw [step_of_rst hw hd hi hc, abandon_getRaw_of_unbacked (s := s.withInputs l) hv hb]
    · rw [step_of_rst hw hd hi hc, abandon_setRaw_of_unbacked (s := s.withInputs l) hv hb hl]
  · have hb : blobBacked s = false := blobBacked_eq_false hn hlt
    rcases hc with ⟨hc, hl⟩ | ⟨hc | hc, hv⟩
    · have hlong : blobTooSmall minBlobLen s = false := by
        rw [← Bool.not_eq_true, blobTooSmall_iff]
        exact Nat.not_lt.2 hl
      exact step_fault_of_lacksMemory hw hc (by simp [lacksMemory, hlong, hb])
    · exact step_fault_of_lacksMemory hw hc (by simp [lacksMemory, hv, hb])
    · exact step_fault_of_lacksMemory hw hc (by simp [lacksMemory, hv, hb])
  · have hb : blobBacked ((s.withInputs l).withFacts g) = false := blobBacked_eq_false hn hlt
    have hf : learn g (s.withInputs l) = .fault .unbackedBlob := if_pos (by simp [hv, hb])
    cases hw : s.running with
    | none => exact ⟨_, (step_of_idle hw hi).trans hf, fun _ => rfl⟩
    | some w =>
      obtain ⟨f, hs, hk⟩ := step_fault_of_interrupted hw hi rfl hf
      exact ⟨f, hs, fun hd => hk (hd w hw)⟩

end Sys2Proof.Machine
end
